-- ==== Sys2Proof/Word.lean ====
section
/-! DEFINITION. The word types: byte, nibble, 32-bit word, and the packet as an ordered pair of words
(spec R7, R45). -/

namespace Sys2Proof

/-- A byte (`u8`), 0 to 255 (R7). -/
abbrev Byte := BitVec 8

/-- A nibble, 4 bits (R7). -/
abbrev Nibble := BitVec 4

/-- A word, 32 bits, bit 31 the most significant (R7). -/
abbrev Word := BitVec 32

/-- A packet: the ordered pair (`word0`, `word1`) of R7 and R45. It crosses the boundary `word0`
first (R34); no byte image of a word is defined (R35), so a packet is a pair of numbers here. -/
structure Packet where
  word0 : Word
  word1 : Word
deriving DecidableEq, Repr

end Sys2Proof
end

