-- ==== Sys2Proof/Config.lean ====
section
/-! DEFINITION. The parameters of the block (R6) and the free values of the model. The parameters
with a value in R6 are constants; the ones R6 marks OPEN are the fields of `Params`, which a state
carries, so that every statement about all states holds for every choice of them. -/

namespace Sys2Proof

/-- `MT_SYSEX7`: the message-type nibble of every packet (R6, R48). -/
def Config.mtSysEx7 : Nibble := 0x3#4

/-- `CHUNK`: the most payload bytes a packet carries (R6). -/
def Config.chunk : Nat := 6

/-- `STRIP_GATE`: framing is examined only if the input is longer than this (R6, U1). -/
def Config.stripGate : Nat := 3

/-- `SOX`: the start-of-exclusive framing byte (R6). -/
def Config.sox : Byte := 0xF0#8

/-- `EOX`: the end-of-exclusive framing byte (R6). -/
def Config.eox : Byte := 0xF7#8

/-- `GROUP_DEFAULT`: the group nibble when the host sets none (R6, R15). -/
def Config.groupDefault : Nibble := 0#4

/-- FREE VALUE (assumption 3): what a read of `DEC.ACC` gives while a call is open, at the n-th
such read. R27 gives the register a read only after `DEC.END`; no body, so nothing can be proved of
the value. -/
opaque Config.freeAcc : Nat → List Byte

/-- FREE VALUE (assumption 3): what a read of `DEC.BOUNDS` gives while a call is open. -/
opaque Config.freeBounds : Nat → List Nat

/-- The parameters R6 marks OPEN (D5, D23); `none` is "unbounded", which R6 and D5 allow a model to
take. -/
structure Params where
  /-- `MAX_LEN`: the longest message `SEG.SUBMIT` takes, in bytes. -/
  maxLen : Option Nat
  /-- `MAX_PKTS`: the most packets `DEC.PKT` takes in one call. -/
  maxPkts : Option Nat
  /-- `TXQ_DEPTH`: the depth of `SEG.TXQ`. -/
  txqDepth : Option Nat
deriving DecidableEq, Repr

/-- A number within an OPEN bound. -/
def Params.within (bound : Option Nat) (n : Nat) : Bool :=
  match bound with
  | none => true
  | some m => n ≤ m

/-- A count that has reached an OPEN bound. -/
def Params.reached (bound : Option Nat) (n : Nat) : Bool :=
  match bound with
  | none => false
  | some m => m ≤ n

/-- `LW`, the width of `SEG.LEN` and `SEG.POS`: `ceil(log2(MAX_LEN + 1))`; `none` where `MAX_LEN`
is unbounded and the two are unbounded naturals (R6). -/
def Params.lw (p : Params) : Option Nat :=
  p.maxLen.map fun m => Nat.clog 2 (m + 1)

/-- The parameters are legal: `TXQ_DEPTH` is at least 1 (R6). -/
def Params.legal (p : Params) : Bool :=
  match p.txqDepth with
  | none => true
  | some d => 1 ≤ d

/-- The unbounded parameters, which the state after reset carries (assumption 1). -/
def Params.unbounded : Params := { maxLen := none, maxPkts := none, txqDepth := none }

end Sys2Proof
end

