-- ==== Sys2Proof/Syntax.lean ====
section
/-! DEFINITION. The instruction set: one constructor per row of spec/opcode_table.json. The
"instruction" of the block is the packet (R2); an `Instr` is a packet with its fields pulled apart. -/

namespace Sys2Proof

/-- A packet by its row of the opcode table (R53 to R55). The byte operands are the six data slots
of R52, padding included, so that no bit of the packet is lost. -/
inductive Instr where
  /-- `SX7.ONE`: status 0, a whole message in one packet (R50). -/
  | sx7One (group count : Nibble) (b0 b1 b2 b3 b4 b5 : Byte)
  /-- `SX7.START`: status 1, the first packet of a multi-packet run (R50). -/
  | sx7Start (group count : Nibble) (b0 b1 b2 b3 b4 b5 : Byte)
  /-- `SX7.CONT`: status 2, a middle packet (R50). -/
  | sx7Cont (group count : Nibble) (b0 b1 b2 b3 b4 b5 : Byte)
  /-- `SX7.END`: status 3, the last packet of a multi-packet run (R50). -/
  | sx7End (group count : Nibble) (b0 b1 b2 b3 b4 b5 : Byte)
  /-- `SX7.RSVD_ST4_7`: a reserved status, 4 to 7 (R55). -/
  | sx7RsvdSt4to7 (status group count : Nibble) (b0 b1 b2 b3 b4 b5 : Byte)
  /-- `SX7.RSVD_ST8_15`: a reserved status, 8 to 15 (R55). -/
  | sx7RsvdSt8to15 (status group count : Nibble) (b0 b1 b2 b3 b4 b5 : Byte)
  /-- `NOT_SX7.MT0_1`: message type 0 or 1; `rest` is `word0[27:0]`, which nothing interprets (R54). -/
  | notSx7Mt0to1 (mt : Nibble) (rest : BitVec 28) (word1 : Word)
  /-- `NOT_SX7.MT2`: message type 2 (R54). -/
  | notSx7Mt2 (mt : Nibble) (rest : BitVec 28) (word1 : Word)
  /-- `NOT_SX7.MT4_7`: message types 4 to 7 (R54). -/
  | notSx7Mt4to7 (mt : Nibble) (rest : BitVec 28) (word1 : Word)
  /-- `NOT_SX7.MT8_15`: message types 8 to 15 (R54). -/
  | notSx7Mt8to15 (mt : Nibble) (rest : BitVec 28) (word1 : Word)
deriving DecidableEq, Repr

end Sys2Proof
end

