-- ==== Sys2Proof/WellFormed.lean ====
section
/-! DEFINITION. Well-formed instructions: the operands lie in the range of the instruction's row of
the opcode table, so that the instruction has an encoding of its own. -/

namespace Sys2Proof

/-- The operand ranges of each row. The four SX7 kinds admit every operand value: a count of 7 to 15
can be encoded, and `DEC` answers it with an error (R56); see `Instr.countLegal`. -/
def Instr.wellFormed : Instr → Bool
  | .sx7One .. => true
  | .sx7Start .. => true
  | .sx7Cont .. => true
  | .sx7End .. => true
  | .sx7RsvdSt4to7 status .. => 4 ≤ status.toNat && status.toNat ≤ 7
  | .sx7RsvdSt8to15 status .. => 8 ≤ status.toNat
  | .notSx7Mt0to1 mt .. => mt.toNat ≤ 1
  | .notSx7Mt2 mt .. => mt.toNat == 2
  | .notSx7Mt4to7 mt .. => 4 ≤ mt.toNat && mt.toNat ≤ 7
  | .notSx7Mt8to15 mt .. => 8 ≤ mt.toNat

/-- The byte-count of a packet of message type 3; a foreign packet has none that is read (R54). -/
def Instr.count? : Instr → Option Nat
  | .sx7One _ count .. => some count.toNat
  | .sx7Start _ count .. => some count.toNat
  | .sx7Cont _ count .. => some count.toNat
  | .sx7End _ count .. => some count.toNat
  | .sx7RsvdSt4to7 _ _ count .. => some count.toNat
  | .sx7RsvdSt8to15 _ _ count .. => some count.toNat
  | .notSx7Mt0to1 .. => none
  | .notSx7Mt2 .. => none
  | .notSx7Mt4to7 .. => none
  | .notSx7Mt8to15 .. => none

/-- The packet invariant of R51, "byte-count field ∈ [0,6]", for the packets of message type 3. -/
def Instr.countLegal (i : Instr) : Bool :=
  match i.count? with
  | some n => n ≤ 6
  | none => false

end Sys2Proof
end

