-- ==== Sys2Proof/Decode.lean ====
section
/-! DEFINITION. The packet format bit by bit (R45 to R55): the field parser `unpack`, the decoder
from words to `Instr`, and after it the encoder. -/

namespace Sys2Proof

/-! ### A packet as one number (R7, D17) -/

/-- `P[63:32] = word0`, `P[31:0] = word1`. -/
def Packet.toBits (p : Packet) : BitVec 64 := p.word0 ++ p.word1

/-- The packet whose 64-bit number is `P`. -/
def Packet.ofBits (P : BitVec 64) : Packet :=
  { word0 := P.extractLsb' 32 32, word1 := P.extractLsb' 0 32 }

/-! ### The field parser (R71) -/

/-- The four fields of the upper half of `word0`. -/
structure Fields where
  mt : Nibble
  group : Nibble
  status : Nibble
  count : Nibble
deriving DecidableEq, Repr

/-- `unpack(word0)` of R71; total on all words and checks nothing. -/
def unpack (word0 : Word) : Fields :=
  { mt := word0.extractLsb' 28 4
    group := word0.extractLsb' 24 4
    status := word0.extractLsb' 20 4
    count := word0.extractLsb' 16 4 }

/-- The upper half of `word0`, `word0[31:16]`, which `DEC.FIELDS` records (R24). -/
def upperHalf (word0 : Word) : BitVec 16 := word0.extractLsb' 16 16

/-- Data slot `i` of a packet, most significant byte first (R33); there are six. -/
def Packet.slot (p : Packet) (i : Nat) : Byte :=
  match i with
  | 0 => p.word0.extractLsb' 8 8
  | 1 => p.word0.extractLsb' 0 8
  | 2 => p.word1.extractLsb' 24 8
  | 3 => p.word1.extractLsb' 16 8
  | 4 => p.word1.extractLsb' 8 8
  | 5 => p.word1.extractLsb' 0 8
  | _ => 0#8

/-- The six data slots in slot order (R33, R72). -/
def Packet.slots (p : Packet) : List Byte :=
  [p.slot 0, p.slot 1, p.slot 2, p.slot 3, p.slot 4, p.slot 5]

/-! ### The decoder -/

/-- The packet by its row of the opcode table: message type, then status (R53 to R55). Every packet
has exactly one row, so nothing is rejected here; what `DEC` refuses it answers with an error. -/
def decode (p : Packet) : Instr :=
  let f := unpack p.word0
  if f.mt = Config.mtSysEx7 then
    if f.status = 0#4 then
      .sx7One f.group f.count (p.slot 0) (p.slot 1) (p.slot 2) (p.slot 3) (p.slot 4) (p.slot 5)
    else if f.status = 1#4 then
      .sx7Start f.group f.count (p.slot 0) (p.slot 1) (p.slot 2) (p.slot 3) (p.slot 4) (p.slot 5)
    else if f.status = 2#4 then
      .sx7Cont f.group f.count (p.slot 0) (p.slot 1) (p.slot 2) (p.slot 3) (p.slot 4) (p.slot 5)
    else if f.status = 3#4 then
      .sx7End f.group f.count (p.slot 0) (p.slot 1) (p.slot 2) (p.slot 3) (p.slot 4) (p.slot 5)
    else if f.status.toNat ≤ 7 then
      .sx7RsvdSt4to7 f.status f.group f.count
        (p.slot 0) (p.slot 1) (p.slot 2) (p.slot 3) (p.slot 4) (p.slot 5)
    else
      .sx7RsvdSt8to15 f.status f.group f.count
        (p.slot 0) (p.slot 1) (p.slot 2) (p.slot 3) (p.slot 4) (p.slot 5)
  else if f.mt.toNat ≤ 1 then .notSx7Mt0to1 f.mt (p.word0.extractLsb' 0 28) p.word1
  else if f.mt.toNat ≤ 2 then .notSx7Mt2 f.mt (p.word0.extractLsb' 0 28) p.word1
  else if f.mt.toNat ≤ 7 then .notSx7Mt4to7 f.mt (p.word0.extractLsb' 0 28) p.word1
  else .notSx7Mt8to15 f.mt (p.word0.extractLsb' 0 28) p.word1

/-- Why a sequence of words holds no packet at its front. -/
inductive DecodeError where
  /-- There is no word. -/
  | noWord
  /-- There is one word only; `DEC` is never handed a lone word (R36). -/
  | loneWord
deriving DecidableEq, Repr

/-- Decoding at the front of a word sequence, `word0` first (R34): the packet and the words left.
Total on any words, rejecting by name what is no whole packet. -/
def decodeWords : List Word → Except DecodeError (Instr × List Word)
  | [] => .error .noWord
  | [_] => .error .loneWord
  | word0 :: word1 :: rest => .ok (decode { word0, word1 }, rest)

/-- The packet that stands in the low `nbits` bits of `w`, numbered as the opcode table numbers a
packet: one 64-bit number `P` with `P[63:32] = word0` (D17). At most 32 bits are the bits of `word0`
alone, as the table's `word0_match` gives them, and `word1` is zero (assumption 6). -/
def tablePacket (nbits w : Nat) : Packet :=
  if nbits ≤ 32 then { word0 := BitVec.ofNat 32 (w % 2 ^ nbits), word1 := 0#32 }
  else Packet.ofBits (BitVec.ofNat 64 (w % 2 ^ nbits))

/-- The host's reading of a table row: lay the two words out, `word0` first, and decode them. A
packet has 64 bits (R45), so more bits than that are no packet. -/
def decodeTableWord (nbits w : Nat) : Option Instr :=
  if nbits ≤ 64 then
    let p := tablePacket nbits w
    match decodeWords [p.word0, p.word1] with
    | .ok (i, []) => some i
    | _ => none
  else none

/-! ### The encoder -/

/-- The upper half of `word0` from its fields, most significant first (R46). -/
def headOf (mt group status count : Nibble) : BitVec 16 := mt ++ group ++ status ++ count

/-- A packet of message type 3 from its fields and data slots (R46, R47). -/
def sysExPacket (group status count : Nibble) (b0 b1 b2 b3 b4 b5 : Byte) : Packet :=
  { word0 := headOf Config.mtSysEx7 group status count ++ b0 ++ b1
    word1 := b2 ++ b3 ++ b4 ++ b5 }

/-- A packet of another message type (R54). -/
def foreignPacket (mt : Nibble) (rest : BitVec 28) (word1 : Word) : Packet :=
  { word0 := mt ++ rest, word1 }

/-- The words of an instruction, from the encodings of R46, R47, R53 to R55. -/
def encode : Instr → Packet
  | .sx7One group count b0 b1 b2 b3 b4 b5 => sysExPacket group 0#4 count b0 b1 b2 b3 b4 b5
  | .sx7Start group count b0 b1 b2 b3 b4 b5 => sysExPacket group 1#4 count b0 b1 b2 b3 b4 b5
  | .sx7Cont group count b0 b1 b2 b3 b4 b5 => sysExPacket group 2#4 count b0 b1 b2 b3 b4 b5
  | .sx7End group count b0 b1 b2 b3 b4 b5 => sysExPacket group 3#4 count b0 b1 b2 b3 b4 b5
  | .sx7RsvdSt4to7 status group count b0 b1 b2 b3 b4 b5 =>
    sysExPacket group status count b0 b1 b2 b3 b4 b5
  | .sx7RsvdSt8to15 status group count b0 b1 b2 b3 b4 b5 =>
    sysExPacket group status count b0 b1 b2 b3 b4 b5
  | .notSx7Mt0to1 mt rest word1 => foreignPacket mt rest word1
  | .notSx7Mt2 mt rest word1 => foreignPacket mt rest word1
  | .notSx7Mt4to7 mt rest word1 => foreignPacket mt rest word1
  | .notSx7Mt8to15 mt rest word1 => foreignPacket mt rest word1

/-! ### The opcode table (R53 to R55), as data -/

/-- One row of spec/opcode_table.json: a 64-bit packet `P` is of the row when `P &&& mask = pattern`. -/
structure TableRow where
  mask : BitVec 64
  pattern : BitVec 64
deriving DecidableEq, Repr

/-- The row of an instruction, its mask and match as the table gives them. -/
def rowOf : Instr → TableRow
  | .sx7One .. => { mask := 0xF0F0000000000000#64, pattern := 0x3000000000000000#64 }
  | .sx7Start .. => { mask := 0xF0F0000000000000#64, pattern := 0x3010000000000000#64 }
  | .sx7Cont .. => { mask := 0xF0F0000000000000#64, pattern := 0x3020000000000000#64 }
  | .sx7End .. => { mask := 0xF0F0000000000000#64, pattern := 0x3030000000000000#64 }
  | .sx7RsvdSt4to7 .. => { mask := 0xF0C0000000000000#64, pattern := 0x3040000000000000#64 }
  | .sx7RsvdSt8to15 .. => { mask := 0xF080000000000000#64, pattern := 0x3080000000000000#64 }
  | .notSx7Mt0to1 .. => { mask := 0xE000000000000000#64, pattern := 0x0000000000000000#64 }
  | .notSx7Mt2 .. => { mask := 0xF000000000000000#64, pattern := 0x2000000000000000#64 }
  | .notSx7Mt4to7 .. => { mask := 0xC000000000000000#64, pattern := 0x4000000000000000#64 }
  | .notSx7Mt8to15 .. => { mask := 0x8000000000000000#64, pattern := 0x8000000000000000#64 }

/-- The ten rows, in the table's order. -/
def tableRows : List TableRow :=
  [ { mask := 0xF0F0000000000000#64, pattern := 0x3000000000000000#64 },
    { mask := 0xF0F0000000000000#64, pattern := 0x3010000000000000#64 },
    { mask := 0xF0F0000000000000#64, pattern := 0x3020000000000000#64 },
    { mask := 0xF0F0000000000000#64, pattern := 0x3030000000000000#64 },
    { mask := 0xF0C0000000000000#64, pattern := 0x3040000000000000#64 },
    { mask := 0xF080000000000000#64, pattern := 0x3080000000000000#64 },
    { mask := 0xE000000000000000#64, pattern := 0x0000000000000000#64 },
    { mask := 0xF000000000000000#64, pattern := 0x2000000000000000#64 },
    { mask := 0xC000000000000000#64, pattern := 0x4000000000000000#64 },
    { mask := 0x8000000000000000#64, pattern := 0x8000000000000000#64 } ]

/-- The packet is of the row. -/
def TableRow.holds (r : TableRow) (p : Packet) : Bool := p.toBits &&& r.mask == r.pattern

end Sys2Proof
end

