-- ==== Sys2Proof/Machine/State.lean ====
section
/-! DEFINITION. The state of the block: SEG and DEC as 10_state.md lists them, the host's side of the
interface (the model's own fields), and the OPEN parameters. FMT has no state (R25). All of it is
plain data. The commands, registers and replies of the interface stand here because the state holds
them. -/

namespace Sys2Proof.Machine

/-! ### Errors, modes, agents -/

/-- The error kinds of R126. "No error" (code 0) is `none` where a register holds an error. -/
inductive ErrKind where
  /-- Code 1, raised by SEG at `SEG.SUBMIT`. -/
  | emptyPayload
  /-- Code 2, raised by DEC at `DEC.PKT`. -/
  | unsupportedMessageType
  /-- Code 3, raised by DEC at `DEC.PKT` or `DEC.END`. -/
  | malformedRun
  /-- Code 4, raised by DEC at `DEC.PKT`; the spec's own kind (R128). -/
  | invalidByteCount
deriving DecidableEq, Repr

/-- `SEG.MODE` (R14). -/
inductive SegMode where
  | idle
  | run
deriving DecidableEq, Repr

/-- `DEC.MODE` (R22). -/
inductive DecMode where
  | idle
  | opened
deriving DecidableEq, Repr

/-- The agents that take steps (R13): SEG its emit step, the host its commands. -/
inductive Agent where
  | seg
  | host
deriving DecidableEq, Repr

/-! ### The interface to the host -/

/-- The host-visible registers of R27, each by name (R37). -/
inductive Reg where
  | segGroup
  | segMode
  | segDone
  | segErr
  | decMode
  | decDone
  | decErr
  | decFields
  | decNpkt
  | decAcc
  | decBounds
deriving DecidableEq, Repr

/-- The commands a host can give: the whole set, by R117. -/
inductive HostCmd where
  /-- `SEG.SETGROUP(g)` (R81). -/
  | setGroup (group : Nibble)
  /-- `SEG.SUBMIT(bytes)` (R82). -/
  | submit (bytes : List Byte)
  /-- `SEG.POP()` (R88). -/
  | pop
  /-- `DEC.BEGIN()` (R101). -/
  | decBegin
  /-- `DEC.PKT(word0, word1)` (R102). -/
  | decPkt (packet : Packet)
  /-- `DEC.END()` (R112). -/
  | decEnd
  /-- A register read (R27). -/
  | readReg (reg : Reg)
  /-- The reset (R150). -/
  | reset
deriving DecidableEq, Repr

/-- What the block gives back to the host. -/
inductive Reply where
  /-- The packet `SEG.POP` returns (R88). -/
  | packet (packet : Packet)
  /-- `DEC.END` returns `Ok(DEC.ACC, DEC.BOUNDS)` (R112). -/
  | decOk (acc : List Byte) (bounds : List Nat)
  /-- `DEC.END` returns `Err(DEC.ERR)` (R112). -/
  | decErr (err : ErrKind)
  /-- A one-bit register's value (R27). -/
  | bit (value : BitVec 1)
  /-- `SEG.GROUP` (R27). -/
  | nibble (value : Nibble)
  /-- An error register's code (R126). -/
  | code (value : BitVec 3)
  /-- `DEC.FIELDS` (R27). -/
  | half (value : BitVec 16)
  /-- `DEC.NPKT` (R27). -/
  | count (value : Nat)
  /-- `DEC.ACC` (R27). -/
  | bytes (value : List Byte)
  /-- `DEC.BOUNDS` (R27). -/
  | bounds (value : List Nat)
deriving DecidableEq, Repr

/-! ### The state -/

/-- The state of SEG (R14 to R21). -/
structure SegState where
  /-- `SEG.MODE` (R14). -/
  mode : SegMode
  /-- `SEG.GROUP` (R15). -/
  group : Nibble
  /-- `SEG.GRP_L`, the group of the current message (R16). -/
  grpL : Nibble
  /-- `SEG.BUF`, the stripped message (R17). -/
  buf : List Byte
  /-- `SEG.LEN` (R17). -/
  len : Nat
  /-- `SEG.POS`, the bytes already packed (R18). -/
  pos : Nat
  /-- `SEG.FIRST` (R19). -/
  first : Bool
  /-- `SEG.DONE`, half of `SEG.RESULT` (R20). -/
  done : Bool
  /-- `SEG.ERR`, the other half of `SEG.RESULT` (R20). -/
  err : Option ErrKind
  /-- `SEG.TXQ`, head first (R21). -/
  txq : List Packet
deriving DecidableEq, Repr

/-- The state of DEC (R22 to R24). -/
structure DecState where
  /-- `DEC.MODE` (R22). -/
  mode : DecMode
  /-- `DEC.INRUN` (R23). -/
  inrun : Bool
  /-- `DEC.ACC` (R24). -/
  acc : List Byte
  /-- `DEC.BOUNDS` (R24). -/
  bounds : List Nat
  /-- `DEC.ERR` (R24). -/
  err : Option ErrKind
  /-- `DEC.DONE` (R24). -/
  done : Bool
  /-- `DEC.FIELDS` (R24). -/
  fields : BitVec 16
  /-- `DEC.NPKT` (R24). -/
  npkt : Nat
deriving DecidableEq, Repr

/-- The host's side of the interface: the model's own fields, no state of the block (assumption 2). -/
structure PortState where
  /-- The commands the host has issued that have not taken their step, oldest first. -/
  inbox : List HostCmd
  /-- Who moves next, asked only when SEG and the host could both move; the host moves when it is
  empty. -/
  turns : List Agent
  /-- What the block has returned to the host, oldest first. -/
  replies : List Reply
  /-- How many free values have been read (assumption 3). -/
  freeReads : Nat
deriving DecidableEq, Repr

/-- The machine: two units that share no state (R13), the port, and the OPEN parameters (R6). -/
structure State where
  seg : SegState
  dec : DecState
  port : PortState
  /-- `MAX_LEN`, `MAX_PKTS`, `TXQ_DEPTH`; no step writes them (assumption 1). -/
  params : Params
deriving DecidableEq, Repr

/-! ### How a step can stop -/

/-- The machine stops with a fault. The spec has no fatal error (R125), so no state that meets the
invariants of R17 to R19 faults; both faults are safe. -/
inductive Fault where
  /-- Raised by `SEG.EMIT` with `SEG.MODE = RUN` and no byte left to pack, where the table of R87 has
  no row and `status_of` no value (R68). Safe: the model stops. -/
  | segNothingLeft
  /-- Raised by `SEG.EMIT` when it would read past the message buffer, where `MemRead` is not defined
  (R31). Safe: the model stops. -/
  | segReadOutside
deriving DecidableEq, Repr

/-- The model refuses the host's command. -/
inductive Refusal where
  /-- An instruction without a meaning in the model; no arm of `exec` answers it. Safe. -/
  | notModelled (mnemonic : String)
  /-- Raised by `SEG.SUBMIT` for a message longer than `MAX_LEN`, which has no step (R82, D5). Safe. -/
  | segMessageTooLong
  /-- Raised by `DEC.BEGIN` while a call is open (R115). Safe. -/
  | decAlreadyOpen
  /-- Raised by `DEC.PKT`, that is, by every packet, while no call is open (R115). Safe. -/
  | decPktNotOpen
  /-- Raised by `DEC.PKT`, that is, by every packet, once `DEC.NPKT = MAX_PKTS` (R115). Safe. -/
  | decCallFull
  /-- Raised by `DEC.END` while no call is open (R115). Safe. -/
  | decEndNotOpen
deriving DecidableEq, Repr

/-- What a step answers. -/
abbrev Out := Host.Outcome State Fault Refusal

/-! ### Reset (R29) -/

/-- SEG after reset. -/
def SegState.reset : SegState :=
  { mode := .idle, group := Config.groupDefault, grpL := 0#4, buf := [], len := 0, pos := 0
    first := true, done := false, err := none, txq := [] }

/-- DEC after reset. -/
def DecState.reset : DecState :=
  { mode := .idle, inrun := false, acc := [], bounds := [], err := none, done := false
    fields := 0#16, npkt := 0 }

/-- The host's side before the host has issued anything (assumption 2). -/
def PortState.reset : PortState :=
  { inbox := [], turns := [], replies := [], freeReads := 0 }

/-- The machine right after reset (R29), with unbounded parameters (assumption 1). -/
def State.reset : State :=
  { seg := SegState.reset, dec := DecState.reset, port := PortState.reset
    params := Params.unbounded }

end Sys2Proof.Machine
end

