-- ==== Sys2Proof/Machine/Flags.lean ====
section
/-! DEFINITION. The one-bit state and the codes. The block has no condition codes (R26); what stands
here is how `SEG.FIRST` picks a status (R68), how `DEC.INRUN` moves (R111), the codes of the error
registers (R126) and `SEG.RESULT` as a pair of registers (R20). -/

namespace Sys2Proof.Machine

/-- `status_of(isFirst, R)` (R68), on the remaining length before the packet. -/
def statusOf (isFirst : Bool) (remaining : Nat) : Nibble :=
  match isFirst, decide (remaining ≤ Config.chunk) with
  | true, true => 0#4
  | true, false => 1#4
  | false, true => 3#4
  | false, false => 2#4

/-- The error codes of R126. -/
def ErrKind.code : ErrKind → BitVec 3
  | .emptyPayload => 1#3
  | .unsupportedMessageType => 2#3
  | .malformedRun => 3#3
  | .invalidByteCount => 4#3

/-- The value of an error register: 0 while there is no error (R126). -/
def errCode : Option ErrKind → BitVec 3
  | none => 0#3
  | some e => e.code

/-- `SEG.MODE` as its bit (R14). -/
def SegMode.bit : SegMode → BitVec 1
  | .idle => 0#1
  | .run => 1#1

/-- `DEC.MODE` as its bit (R22). -/
def DecMode.bit : DecMode → BitVec 1
  | .idle => 0#1
  | .opened => 1#1

/-- The three values of `SEG.RESULT` (R20). -/
inductive SegResult where
  | none
  | ok
  | error (err : ErrKind)
deriving DecidableEq, Repr

/-- `SEG.RESULT` read from `SEG.DONE` and `SEG.ERR` (R20). -/
def SegState.result (g : SegState) : SegResult :=
  match g.done, g.err with
  | false, _ => .none
  | true, Option.none => .ok
  | true, some e => .error e

/-- What a status does to an open or closed run (R111): the new `DEC.INRUN`, and whether a message is
complete; `none` where the table says `MalformedRun`. -/
def runNext (inrun : Bool) (status : Nibble) : Option (Bool × Bool) :=
  match inrun, status.toNat with
  | false, 0 => some (false, true)
  | false, 1 => some (true, false)
  | true, 2 => some (true, false)
  | true, 3 => some (false, true)
  | _, _ => none

end Sys2Proof.Machine
end

