-- ==== Sys2Proof/Machine/Operands.lean ====
section
/-! DEFINITION. The functions of FMT over bytes and words (R65 to R72), which SEG and DEC call inside
their own steps: the frame parser, the marshaller and the payload extraction. `unpack` stands in
Decode.lean, `status_of` in Flags.lean. -/

namespace Sys2Proof.Machine

/-- `s[i ..< j]` of R7: elements `i` to `j - 1`. -/
def subseq {α : Type} (s : List α) (i j : Nat) : List α := (s.drop i).take (j - i)

/-- `strip(bytes)` (R66): the two ends are examined under the one test on the length as given, each
independently of the other. -/
def strip (bytes : List Byte) : List Byte :=
  let n := bytes.length
  if n > Config.stripGate then
    let s := if bytes[0]? = some Config.sox then 1 else 0
    let e := if bytes[n - 1]? = some Config.eox then 1 else 0
    subseq bytes s (n - e)
  else bytes

/-- `count_of(R)` (R69). -/
def countOf (remaining : Nat) : Nat := min remaining Config.chunk

/-- Byte `i` of a chunk, zero past its end (R52, R70). -/
def paddedByte (chunk : List Byte) (i : Nat) : Byte := chunk.getD i 0#8

/-- `pack(group, status, chunk)` (R70). -/
def pack (group status : Nibble) (chunk : List Byte) : Packet :=
  sysExPacket group status (BitVec.ofNat 4 chunk.length)
    (paddedByte chunk 0) (paddedByte chunk 1) (paddedByte chunk 2)
    (paddedByte chunk 3) (paddedByte chunk 4) (paddedByte chunk 5)

/-- `payload_of(word0, word1, count)` (R72): the first `count` of the six data slots. -/
def payloadOf (p : Packet) (count : Nat) : List Byte := p.slots.take count

/-- The payload of a packet given by its data slots (R51, R52): the same, before the slots are laid
into words. -/
def payloadOfSlots (count : Nibble) (b0 b1 b2 b3 b4 b5 : Byte) : List Byte :=
  [b0, b1, b2, b3, b4, b5].take count.toNat

end Sys2Proof.Machine
end

