-- ==== Sys2Proof/Machine/Ops.lean ====
section
/-! DEFINITION. The named operations over the state: the read and write primitives (R8, R31, R32),
the packet queue (R21), replies, raising an error (R129) and the frame every packet passes through
(R102). -/

namespace Sys2Proof.Machine

/-! ### Setters -/

/-- Replace the state of SEG. -/
def State.setSeg (s : State) (g : SegState) : State := { s with seg := g }

/-- Replace the state of DEC. -/
def State.setDec (s : State) (d : DecState) : State := { s with dec := d }

/-- Replace the host's side. -/
def State.setPort (s : State) (p : PortState) : State := { s with port := p }

/-! ### Buffers -/

/-- `MemRead(i, n)` (R31): `n` bytes of `SEG.BUF` from index `i`, defined only inside the buffer. -/
def State.memRead (s : State) (i n : Nat) : Option (List Byte) :=
  if i + n ≤ s.seg.len ∧ i + n ≤ s.seg.buf.length then some (subseq s.seg.buf i (i + n)) else none

/-- `MemWrite(len(DEC.ACC), n, v)` (R32): append to `DEC.ACC`. -/
def DecState.memWrite (d : DecState) (v : List Byte) : DecState := { d with acc := d.acc ++ v }

/-- Record in `DEC.BOUNDS` that a message of the call is complete at `at` (R24). -/
def DecState.closeAt (d : DecState) (at_ : Nat) : DecState := { d with bounds := d.bounds ++ [at_] }

/-- `push(SEG.TXQ, p)` (R8): append at the tail. -/
def SegState.push (g : SegState) (p : Packet) : SegState := { g with txq := g.txq ++ [p] }

/-- Give the host a reply. -/
def State.answer (s : State) (r : Reply) : State :=
  s.setPort { s.port with replies := s.port.replies ++ [r] }

/-! ### Raising an error, and recovery -/

/-- `raise e` in SEG (R129): the result registers, and nothing else. -/
def SegState.raise (g : SegState) (e : ErrKind) : SegState :=
  { g with done := true, err := some e }

/-- `FAIL(e)` in DEC (R102, R129): the error is recorded and what the call had recovered is dropped.
`DEC.MODE` stays `OPEN`. -/
def DecState.raise (d : DecState) (e : ErrKind) : DecState :=
  { d with err := some e, acc := [], bounds := [], inrun := false }

/-- `raise e` (R129), the one shared operation: an error is a result and no transfer of control, so
it writes registers of the unit that raises that kind (R126) and nothing else. -/
def State.raise (s : State) (e : ErrKind) : State :=
  match e with
  | .emptyPayload => s.setSeg (s.seg.raise .emptyPayload)
  | .unsupportedMessageType => s.setDec (s.dec.raise .unsupportedMessageType)
  | .malformedRun => s.setDec (s.dec.raise .malformedRun)
  | .invalidByteCount => s.setDec (s.dec.raise .invalidByteCount)

/-- A call freshly opened by `DEC.BEGIN` (R101). There is no return-from-trap operation; this is how a
host recovers from a DEC error (R132): everything of the call before is gone. -/
def DecState.fresh : DecState :=
  { mode := .opened, inrun := false, acc := [], bounds := [], err := none, done := false
    fields := 0#16, npkt := 0 }

/-! ### The frame of `DEC.PKT` (R102) -/

/-- The packet is counted, whether or not the call has failed (R24). -/
def DecState.counted (d : DecState) : DecState := { d with npkt := d.npkt + 1 }

/-- The upper half of `word0` is recorded (R24). -/
def DecState.recorded (d : DecState) (head : BitVec 16) : DecState := { d with fields := head }

/-- What every packet goes through (R102): refused unless a call is open and has room (R115);
counted; ignored after a failure (R103 (d)); else its upper half is recorded and `body` decides. -/
def State.takePacket (s : State) (head : BitVec 16) (body : State → State) : Out :=
  match s.dec.mode with
  | .idle => .refused .decPktNotOpen
  | .opened =>
    if Params.reached s.params.maxPkts s.dec.npkt then .refused .decCallFull
    else if s.dec.err.isSome then .next (s.setDec s.dec.counted)
    else .next (body (s.setDec (s.dec.counted.recorded head)))

/-- The byte-count test (R103 (a), R110), before the status is looked at. -/
def State.checkCount (s : State) (count : Nibble) (body : State → State) : State :=
  if count.toNat > Config.chunk then s.raise .invalidByteCount else body s

end Sys2Proof.Machine
end

