-- ==== Sys2Proof/Machine/Dec.lean ====
section
/-! DEFINITION. DEC, the packet decoder (42_decoder.md): the meaning of each packet kind under
`DEC.PKT`, the commands `DEC.BEGIN` and `DEC.END`, and `decode(packets)` as one function (R113). -/

namespace Sys2Proof.Machine

/-! ### What an accepted packet does -/

/-- A packet that is a whole message (R105): legal with no run open. -/
def State.acceptOne (s : State) (count : Nibble) (bytes : List Byte) : State :=
  if s.dec.inrun then s.raise .malformedRun
  else s.setDec ((s.dec.memWrite bytes).closeAt (s.dec.acc.length + count.toNat))

/-- The first packet of a run (R106): legal with no run open, and opens one. -/
def State.acceptStart (s : State) (bytes : List Byte) : State :=
  if s.dec.inrun then s.raise .malformedRun
  else s.setDec { s.dec.memWrite bytes with inrun := true }

/-- A middle packet (R107): legal inside a run. -/
def State.acceptCont (s : State) (bytes : List Byte) : State :=
  if s.dec.inrun then s.setDec (s.dec.memWrite bytes) else s.raise .malformedRun

/-- The last packet of a run (R108): legal inside a run, and closes it. -/
def State.acceptEnd (s : State) (count : Nibble) (bytes : List Byte) : State :=
  if s.dec.inrun then
    s.setDec { (s.dec.memWrite bytes).closeAt (s.dec.acc.length + count.toNat) with inrun := false }
  else s.raise .malformedRun

/-- The upper half of a foreign packet's `word0`, which is recorded and not interpreted (R54, R102). -/
def foreignHead (mt : Nibble) (rest : BitVec 28) : BitVec 16 := mt ++ rest.extractLsb' 16 12

/-- A packet of message type 3 with a reserved status (R109, after R110). -/
def State.takeReserved (s : State) (status group count : Nibble) : Out :=
  s.takePacket (headOf Config.mtSysEx7 group status count) fun t =>
    t.checkCount count fun u => u.raise .malformedRun

/-- A packet of another message type (R104). -/
def State.takeForeign (s : State) (mt : Nibble) (rest : BitVec 28) : Out :=
  s.takePacket (foreignHead mt rest) fun t => t.raise .unsupportedMessageType

/-! ### The meaning of each packet kind under `DEC.PKT` -/

/-- `SX7.ONE` (R105). -/
def execSx7One (group count : Nibble) (b0 b1 b2 b3 b4 b5 : Byte) (s : State) : Out :=
  s.takePacket (headOf Config.mtSysEx7 group 0#4 count) fun t =>
    t.checkCount count fun u => u.acceptOne count (payloadOfSlots count b0 b1 b2 b3 b4 b5)

/-- `SX7.START` (R106). -/
def execSx7Start (group count : Nibble) (b0 b1 b2 b3 b4 b5 : Byte) (s : State) : Out :=
  s.takePacket (headOf Config.mtSysEx7 group 1#4 count) fun t =>
    t.checkCount count fun u => u.acceptStart (payloadOfSlots count b0 b1 b2 b3 b4 b5)

/-- `SX7.CONT` (R107). -/
def execSx7Cont (group count : Nibble) (b0 b1 b2 b3 b4 b5 : Byte) (s : State) : Out :=
  s.takePacket (headOf Config.mtSysEx7 group 2#4 count) fun t =>
    t.checkCount count fun u => u.acceptCont (payloadOfSlots count b0 b1 b2 b3 b4 b5)

/-- `SX7.END` (R108). -/
def execSx7End (group count : Nibble) (b0 b1 b2 b3 b4 b5 : Byte) (s : State) : Out :=
  s.takePacket (headOf Config.mtSysEx7 group 3#4 count) fun t =>
    t.checkCount count fun u => u.acceptEnd count (payloadOfSlots count b0 b1 b2 b3 b4 b5)

/-- `SX7.RSVD_ST4_7` (R109). -/
def execSx7RsvdSt4to7 (status group count : Nibble) (s : State) : Out :=
  s.takeReserved status group count

/-- `SX7.RSVD_ST8_15` (R109). -/
def execSx7RsvdSt8to15 (status group count : Nibble) (s : State) : Out :=
  s.takeReserved status group count

/-- `NOT_SX7.MT0_1` (R104). -/
def execNotSx7Mt0to1 (mt : Nibble) (rest : BitVec 28) (s : State) : Out := s.takeForeign mt rest

/-- `NOT_SX7.MT2` (R104). -/
def execNotSx7Mt2 (mt : Nibble) (rest : BitVec 28) (s : State) : Out := s.takeForeign mt rest

/-- `NOT_SX7.MT4_7` (R104). -/
def execNotSx7Mt4to7 (mt : Nibble) (rest : BitVec 28) (s : State) : Out := s.takeForeign mt rest

/-- `NOT_SX7.MT8_15` (R104). -/
def execNotSx7Mt8to15 (mt : Nibble) (rest : BitVec 28) (s : State) : Out := s.takeForeign mt rest

/-! ### Opening and closing a call -/

/-- `DEC.BEGIN()` (R101); refused while a call is open (R115). -/
def State.decBegin (s : State) : Out :=
  match s.dec.mode with
  | .opened => .refused .decAlreadyOpen
  | .idle => .next (s.setDec DecState.fresh)

/-- The run check of `DEC.END` (R112): an open run of a call that has not failed is `MalformedRun`. -/
def State.closeRun (s : State) : State :=
  if s.dec.err.isNone && s.dec.inrun then s.raise .malformedRun else s

/-- What `DEC.END` returns (R112). -/
def DecState.outcome (d : DecState) : Reply :=
  match d.err with
  | none => .decOk d.acc d.bounds
  | some e => .decErr e

/-- The call is over (R112). -/
def DecState.ended (d : DecState) : DecState := { d with done := true, mode := .idle }

/-- `DEC.END()` (R112); refused while no call is open (R115). -/
def State.decEnd (s : State) : Out :=
  match s.dec.mode with
  | .idle => .refused .decEndNotOpen
  | .opened =>
    let t := s.closeRun
    .next ((t.setDec t.dec.ended).answer t.dec.outcome)

/-! ### The whole of DEC as one function (R113) -/

/-- The loop of `decode(packets)`, with `acc`, `bounds` and `inrun` as R113 names them. It works on
the words and shares no definition with `exec` but the FMT functions. -/
def decodeLoop (acc : List Byte) (bounds : List Nat) (inrun : Bool) :
    List Packet → Except ErrKind (List Byte × List Nat)
  | [] => if inrun then .error .malformedRun else .ok (acc, bounds)
  | p :: ps =>
    let f := unpack p.word0
    if f.mt ≠ Config.mtSysEx7 then .error .unsupportedMessageType
    else if f.count.toNat > 6 then .error .invalidByteCount
    else
      let bytes := payloadOf p f.count.toNat
      match f.status.toNat with
      | 0 =>
        if inrun then .error .malformedRun
        else decodeLoop (acc ++ bytes) (bounds ++ [(acc ++ bytes).length]) false ps
      | 1 => if inrun then .error .malformedRun else decodeLoop (acc ++ bytes) bounds true ps
      | 2 => if inrun then decodeLoop (acc ++ bytes) bounds true ps else .error .malformedRun
      | 3 =>
        if inrun then decodeLoop (acc ++ bytes) (bounds ++ [(acc ++ bytes).length]) false ps
        else .error .malformedRun
      | _ => .error .malformedRun

/-- `decode(packets)` (R113). -/
def decodeCall (packets : List Packet) : Except ErrKind (List Byte × List Nat) :=
  decodeLoop [] [] false packets

/-- The result of `decode(packets)` as `DEC.END` returns it. -/
def callReply : Except ErrKind (List Byte × List Nat) → Reply
  | .ok (acc, bounds) => .decOk acc bounds
  | .error e => .decErr e

end Sys2Proof.Machine
end

