-- ==== Sys2Proof/Machine/Dispatch.lean ====
section
/-! DEFINITION. One arm per constructor of `Instr`: what `DEC.PKT` does with that packet (R102). -/

namespace Sys2Proof.Machine

def exec (i : Instr) (s : State) : Host.Outcome State Fault Refusal :=
  match i with
  | .sx7One group count b0 b1 b2 b3 b4 b5 => Sys2Proof.Machine.execSx7One group count b0 b1 b2 b3 b4 b5 s
  | .sx7Start group count b0 b1 b2 b3 b4 b5 => Sys2Proof.Machine.execSx7Start group count b0 b1 b2 b3 b4 b5 s
  | .sx7Cont group count b0 b1 b2 b3 b4 b5 => Sys2Proof.Machine.execSx7Cont group count b0 b1 b2 b3 b4 b5 s
  | .sx7End group count b0 b1 b2 b3 b4 b5 => Sys2Proof.Machine.execSx7End group count b0 b1 b2 b3 b4 b5 s
  -- the data slots of a reserved packet are not read (R109)
  | .sx7RsvdSt4to7 status group count _ _ _ _ _ _ => Sys2Proof.Machine.execSx7RsvdSt4to7 status group count s
  | .sx7RsvdSt8to15 status group count _ _ _ _ _ _ => Sys2Proof.Machine.execSx7RsvdSt8to15 status group count s
  -- of a foreign packet only the upper half of word0 is recorded (R104)
  | .notSx7Mt0to1 mt rest _ => Sys2Proof.Machine.execNotSx7Mt0to1 mt rest s
  | .notSx7Mt2 mt rest _ => Sys2Proof.Machine.execNotSx7Mt2 mt rest s
  | .notSx7Mt4to7 mt rest _ => Sys2Proof.Machine.execNotSx7Mt4to7 mt rest s
  | .notSx7Mt8to15 mt rest _ => Sys2Proof.Machine.execNotSx7Mt8to15 mt rest s

end Sys2Proof.Machine
end

