-- ==== Sys2Proof/Machine/Seg.lean ====
section
/-! DEFINITION. SEG, the segmenter (41_segmenter.md): the commands `SEG.SETGROUP`, `SEG.SUBMIT` and
`SEG.POP`, the internal step `SEG.EMIT` in its four kinds, and `segment(group, bytes)` as one
function (R89). -/

namespace Sys2Proof.Machine

/-! ### Holding (R87, R88, R91) -/

/-- A command that waits in the present state: `SEG.SUBMIT` while a message runs (R91), `SEG.POP` on an
empty queue (R88). No other command is ever held. -/
def State.held (s : State) : HostCmd → Bool
  | .submit _ => s.seg.mode == .run
  | .pop => s.seg.txq.isEmpty
  | .setGroup _ => false
  | .decBegin => false
  | .decPkt _ => false
  | .decEnd => false
  | .readReg _ => false
  | .reset => false

/-- A held command goes back to wait: it is not dropped (R91). -/
def State.park (s : State) (c : HostCmd) : State :=
  s.setPort { s.port with inbox := c :: s.port.inbox }

/-- `SEG.EMIT` is enabled: a message runs and the queue is not full (R87). -/
def State.emitReady (s : State) : Bool :=
  s.seg.mode == .run && !Params.reached s.params.txqDepth s.seg.txq.length

/-- `R = SEG.LEN - SEG.POS` (R18). -/
def SegState.remaining (g : SegState) : Nat := g.len - g.pos

/-! ### Host commands -/

/-- `SEG.SETGROUP(g)` (R81). -/
def State.segSetGroup (s : State) (group : Nibble) : State :=
  s.setSeg { s.seg with group := group }

/-- The message taken in (R82): stripped, with the group of this moment. -/
def SegState.accepted (g : SegState) (bytes : List Byte) : SegState :=
  { g with
    buf := strip bytes
    len := (strip bytes).length
    pos := 0
    first := true
    grpL := g.group
    done := false
    err := none
    mode := .run }

/-- `SEG.SUBMIT(bytes)` (R82): held while a message runs (R91), refused beyond `MAX_LEN` (D5); the
emptiness test is on the input as given. -/
def State.segSubmit (s : State) (bytes : List Byte) : Out :=
  if s.held (.submit bytes) then .next (s.park (.submit bytes))
  else if !Params.within s.params.maxLen bytes.length then .refused .segMessageTooLong
  else if bytes.isEmpty then .next (s.raise .emptyPayload)
  else .next (s.setSeg (s.seg.accepted bytes))

/-- `SEG.POP()` (R88): the head of the queue goes to the host; held on an empty queue. -/
def State.segPop (s : State) : Out :=
  match s.seg.txq with
  | [] => .next (s.park .pop)
  | p :: rest => .next ((s.setSeg { s.seg with txq := rest }).answer (.packet p))

/-! ### The emit step -/

/-- The message is used up: `SEG.MODE <- IDLE`, `SEG.RESULT <- OK` (R93). -/
def SegState.finished (g : SegState) : SegState :=
  { g with mode := .idle, done := true, err := none }

/-- The state after a packet with the chunk `chunk` of `c` bytes is pushed (R93). -/
def SegState.emitted (g : SegState) (status : Nibble) (c : Nat) (chunk : List Byte) : SegState :=
  let after := { g.push (pack g.grpL status chunk) with pos := g.pos + c, first := false }
  if g.pos + c = g.len then after.finished else after

/-- `EMIT_BODY(status)` (R93). The fault is unreachable under the invariants of R17 and R18. -/
def State.emitBody (s : State) (status : Nibble) : Out :=
  let c := countOf s.seg.remaining
  match s.memRead s.seg.pos c with
  | none => .fault .segReadOutside
  | some chunk => .next (s.setSeg (s.seg.emitted status c chunk))

/-- `SEG.EMIT.ONE` (R83). -/
def State.emitOne (s : State) : Out := s.emitBody 0#4

/-- `SEG.EMIT.START` (R84). -/
def State.emitStart (s : State) : Out := s.emitBody 1#4

/-- `SEG.EMIT.CONT` (R85). -/
def State.emitCont (s : State) : Out := s.emitBody 2#4

/-- `SEG.EMIT.END` (R86). -/
def State.emitEnd (s : State) : Out := s.emitBody 3#4

/-- `SEG.EMIT`: the one of the four that the table of R87 enables. The table has no row for `R = 0`. -/
def State.segEmit (s : State) : Out :=
  if s.seg.remaining = 0 then .fault .segNothingLeft
  else
    match s.seg.first, decide (s.seg.remaining ≤ Config.chunk) with
    | true, true => s.emitOne
    | true, false => s.emitStart
    | false, false => s.emitCont
    | false, true => s.emitEnd

/-! ### The whole of SEG as one function (R89) -/

/-- The loop of `segment`, with `pos` and `isFirst` as R89 names them; `fuel` bounds the number of
turns, of which `len(p)` are always enough, each turn taking at least one byte. -/
def segmentLoop (group : Nibble) (p : List Byte) : Nat → Nat → Bool → List Packet
  | 0, _, _ => []
  | fuel + 1, pos, isFirst =>
    if pos < p.length then
      let remaining := p.length - pos
      let c := min remaining 6
      pack group (statusOf isFirst remaining) (subseq p pos (pos + c))
        :: segmentLoop group p fuel (pos + c) false
    else []

/-- `segment(group, bytes)` (R89). -/
def segment (group : Nibble) (bytes : List Byte) : Except ErrKind (List Packet) :=
  if bytes.isEmpty then .error .emptyPayload
  else .ok (segmentLoop group (strip bytes) (strip bytes).length 0 true)

end Sys2Proof.Machine
end

