-- ==== Sys2Proof/Machine/Command.lean ====
section
/-! DEFINITION. The host's commands (R117), the register reads (R27), the reset (R150), and which
step is taken next when several are enabled (R13, R40). -/

namespace Sys2Proof.Machine

/-! ### Register reads and reset -/

/-- One free value has been read (assumption 3). -/
def State.spendFree (s : State) : State :=
  s.setPort { s.port with freeReads := s.port.freeReads + 1 }

/-- A read of `DEC.ACC`: `[]` after a failure (R24, U14); the accumulator when the call is over; a free
value while a call is open, where R27 gives no read (assumption 3). -/
def State.readAcc (s : State) : State :=
  if s.dec.err.isSome then s.answer (.bytes [])
  else match s.dec.mode with
    | .idle => s.answer (.bytes s.dec.acc)
    | .opened => s.spendFree.answer (.bytes (Config.freeAcc s.port.freeReads))

/-- A read of `DEC.BOUNDS`, under the same rule as `DEC.ACC`. -/
def State.readBounds (s : State) : State :=
  if s.dec.err.isSome then s.answer (.bounds [])
  else match s.dec.mode with
    | .idle => s.answer (.bounds s.dec.bounds)
    | .opened => s.spendFree.answer (.bounds (Config.freeBounds s.port.freeReads))

/-- A register read by name (R27); it has no side effect on the block (R37). -/
def State.readReg (s : State) : Reg → State
  | .segGroup => s.answer (.nibble s.seg.group)
  | .segMode => s.answer (.bit s.seg.mode.bit)
  | .segDone => s.answer (.bit (BitVec.ofBool s.seg.done))
  | .segErr => s.answer (.code (errCode s.seg.err))
  | .decMode => s.answer (.bit s.dec.mode.bit)
  | .decDone => s.answer (.bit (BitVec.ofBool s.dec.done))
  | .decErr => s.answer (.code (errCode s.dec.err))
  | .decFields => s.answer (.half s.dec.fields)
  | .decNpkt => s.answer (.count s.dec.npkt)
  | .decAcc => s.readAcc
  | .decBounds => s.readBounds

/-- The reset (R150): every element of SEG and DEC to its reset value; the host's side and the
parameters are no elements of the block's state (assumption 4). -/
def State.coreReset (s : State) : State := (s.setSeg SegState.reset).setDec DecState.reset

/-! ### One command -/

/-- The step of one host command (R117). -/
def State.command (s : State) : HostCmd → Out
  | .setGroup group => .next (s.segSetGroup group)
  | .submit bytes => s.segSubmit bytes
  | .pop => s.segPop
  | .decBegin => s.decBegin
  | .decPkt p => exec (decode p) s
  | .decEnd => s.decEnd
  | .readReg r => .next (s.readReg r)
  | .reset => .next s.coreReset

/-! ### Which step is next -/

/-- The oldest command that is not held, and the commands left without it; the held ones keep their
place (R91). -/
def State.pickReady (s : State) : List HostCmd → Option (HostCmd × List HostCmd)
  | [] => none
  | c :: cs =>
    if s.held c then (s.pickReady cs).map fun (d, rest) => (d, c :: rest) else some (c, cs)

/-- The next step of the machine. -/
inductive Choice where
  /-- No step is enabled: SEG waits for the host, and the host has given nothing that can step. -/
  | wait
  /-- SEG takes `SEG.EMIT`. -/
  | emit
  /-- The host's command `c` takes its step; `rest` stays in the inbox. -/
  | take (c : HostCmd) (rest : List HostCmd)
deriving DecidableEq, Repr

/-- The schedule gives SEG the next turn. -/
def PortState.segTurn (p : PortState) : Bool := p.turns.head? == some .seg

/-- The next step: the only enabled one where there is one, the schedule's choice where SEG and the
host could both move. Every interleaving of R40 is some schedule. -/
def State.choose (s : State) : Choice :=
  match s.pickReady s.port.inbox with
  | none => if s.emitReady then .emit else .wait
  | some (c, rest) => if s.emitReady && s.port.segTurn then .emit else .take c rest

/-- A turn of the schedule is used up where it was asked. -/
def State.spendTurn (s : State) : State :=
  if s.emitReady && (s.pickReady s.port.inbox).isSome then
    s.setPort { s.port with turns := s.port.turns.tail }
  else s

/-- The state a chosen command's step starts from: the turn used up, the command out of the inbox. -/
def State.fetched (s : State) (rest : List HostCmd) : State :=
  s.spendTurn.setPort { s.spendTurn.port with inbox := rest }

/-- One step of the machine: SEG's emit, a host command, or waiting, which changes nothing. -/
def State.advance (s : State) : Out :=
  match s.choose with
  | .wait => .next s
  | .emit => s.spendTurn.segEmit
  | .take c rest => (s.fetched rest).command c

/-! ### Placing a packet for the next step -/

/-- The state in which the host has opened a call, if none is open, as `DEC.PKT` needs one (R102). -/
def State.withCall (s : State) : State :=
  match s.dec.mode with
  | .idle => s.setDec DecState.fresh
  | .opened => s

/-- The host gives `DEC.PKT(p)` and has the next turn, so that the very next step is that command. -/
def State.placePacket (s : State) (p : Packet) : State :=
  let t := s.withCall
  t.setPort
    { t.port with
      inbox := .decPkt p :: t.port.inbox
      turns := if t.emitReady then .host :: t.port.turns else t.port.turns }

end Sys2Proof.Machine
end

