-- ==== Sys2Proof/Machine/Text.lean ====
section
/-! DEFINITION. The textual form of a packet (R61) and the pseudo-instruction `SYSEX` (R62). It carries
no behaviour (D24): no step reads it. A line is a list of characters. -/

namespace Sys2Proof.Machine

/-- A hexadecimal digit, upper case (R7). -/
def hexDigit (n : Nibble) : Char :=
  ['0', '1', '2', '3', '4', '5', '6', '7', '8', '9', 'A', 'B', 'C', 'D', 'E', 'F'].getD n.toNat '0'

/-- A byte in two hexadecimal digits. -/
def hexByte (b : Byte) : List Char := [hexDigit (b.extractLsb' 4 4), hexDigit (b.extractLsb' 0 4)]

/-- A word in eight hexadecimal digits. -/
def hexWord (w : Word) : List Char :=
  hexByte (w.extractLsb' 24 8) ++ hexByte (w.extractLsb' 16 8) ++ hexByte (w.extractLsb' 8 8)
    ++ hexByte (w.extractLsb' 0 8)

/-- A nibble in decimal, 0 to 15. -/
def decimalNibble (n : Nibble) : List Char :=
  if n.toNat < 10 then [hexDigit n] else ['1', hexDigit (n - 10#4)]

/-- A packet written as its two words (R61). -/
def wordsLine (p : Packet) : List Char := hexWord p.word0 ++ [' '] ++ hexWord p.word1

/-- A packet written by its kind, group, count and valid bytes (R61). -/
def kindLine (kind : List Char) (group count : Nibble) (bytes : List Byte) : List Char :=
  ['S', 'X', '7', '.'] ++ kind ++ [' ', 'g'] ++ decimalNibble group ++ [' ', 'n']
    ++ decimalNibble count ++ [' ', ':'] ++ (bytes.map fun b => ' ' :: hexByte b).flatten

/-- The name of a status in the notation (R50); the reserved ones have none. -/
def kindName (status : Nibble) : Option (List Char) :=
  match status.toNat with
  | 0 => some ['O', 'N', 'E']
  | 1 => some ['S', 'T', 'A', 'R', 'T']
  | 2 => some ['C', 'O', 'N', 'T']
  | 3 => some ['E', 'N', 'D']
  | _ => none

/-- The line of a packet (R61): by kind where its fields are none of the reserved ones and its padding
is zero, else as its two words. -/
def packetLine (p : Packet) : List Char :=
  let f := unpack p.word0
  let bytes := payloadOf p f.count.toNat
  match kindName f.status with
  | none => wordsLine p
  | some kind =>
    if f.count.toNat ≤ 6 ∧ pack f.group f.status bytes = p then kindLine kind f.group f.count bytes
    else wordsLine p

/-- `SYSEX g<group> : <bytes>` (R62): the lines of the run it stands for; none for no bytes. -/
def sysexLines (group : Nibble) (bytes : List Byte) : Option (List (List Char)) :=
  match segment group bytes with
  | .ok packets => some (packets.map packetLine)
  | .error _ => none

end Sys2Proof.Machine
end

