-- ==== Sys2Proof/Machine/Copies.lean ====
section
/-! DEFINITION. `N_INST` copies of the block (R139): each has its own whole state, and a step is a step
of one of them. -/

namespace Sys2Proof.Machine

/-- `N_INST` is legal: at least 1 (R6). -/
def nInstLegal (n : Nat) : Bool := 1 ≤ n

/-- The copies, in an order the block itself cannot read. `N_INST` is their number. -/
abbrev Copies := List State

/-- `N_INST = n` copies, each in the reset state (R139); legal for a legal `n`. -/
def Copies.reset (n : Nat) : Copies := List.replicate n State.reset

/-- The copies are a legal choice of the parameters of R6: `N_INST` is, and those of every copy are.
DESIGN CHOICE (assumption 13): the spec leaves open whether the copies share one `MAX_LEN`, `MAX_PKTS`
and `TXQ_DEPTH`; each copy carries its own here, and any mix of legal ones is legal. -/
def Copies.legal (cs : Copies) : Bool := nInstLegal cs.length && cs.all fun s => s.params.legal

/-- Copy `k` takes a step; there is no step where there is no such copy. -/
def Copies.stepAt (cs : Copies) (k : Nat) : Host.Outcome Copies Fault Refusal :=
  match cs[k]? with
  | none => .next cs
  | some s =>
    match step s with
    | .next t => .next (cs.set k t)
    | .fault r => .fault r
    | .refused r => .refused r

end Sys2Proof.Machine
end

