-- ==== Sys2Proof/Safety.lean ====
section
/-! DEFINITION. What counts as a safe state: the invariants the spec gives the block (R17 to R24, R27,
R59), and the form of the packets SEG emits. -/

namespace Sys2Proof.Machine

/-- What R59 says of one packet SEG pushes: message type 3, status 0 to 3, 1 to 6 bytes and zero
padding, and a full packet where the status is `start` or `continue`. -/
def emittedForm (p : Packet) : Bool :=
  let f := unpack p.word0
  f.mt == Config.mtSysEx7 && f.status.toNat ≤ 3 && 1 ≤ f.count.toNat && f.count.toNat ≤ 6
    && (!(f.status == 1#4 || f.status == 2#4) || f.count.toNat == 6)
    && (p.slots.drop f.count.toNat).all (· == 0#8)

/-- The invariants of SEG. -/
structure SegState.Inv (p : Params) (g : SegState) : Prop where
  /-- `SEG.LEN` is the length of `SEG.BUF` (R17). -/
  len_buf : g.len = g.buf.length
  /-- `SEG.POS` never passes `SEG.LEN` (R18). -/
  pos_le : g.pos ≤ g.len
  /-- While a message runs a byte is left (R93). -/
  run_left : g.mode = .run → g.pos < g.len
  /-- A call that has ended has packed all its bytes (R93). -/
  idle_packed : g.mode = .idle → g.pos = g.len
  /-- While a message runs, `SEG.FIRST = 1` if and only if `SEG.POS = 0` (R19). -/
  first_iff : g.mode = .run → (g.first = true ↔ g.pos = 0)
  /-- While a message runs, whole packets of 6 have been emitted (R90 (b)). -/
  pos_six : g.mode = .run → g.pos % 6 = 0
  /-- While a message runs, `SEG.RESULT` is `NONE` (R20). -/
  run_none : g.mode = .run → g.done = false
  /-- `SEG.RESULT` is one of its three values (R20). -/
  result_value : g.done = false → g.err = none
  /-- `SEG.ERR` holds 0 or 1 (R27). -/
  err_kind : g.err = none ∨ g.err = some .emptyPayload
  /-- `SEG.LEN` is at most `MAX_LEN` (R12). -/
  len_max : Params.within p.maxLen g.len = true
  /-- `SEG.TXQ` has a depth (R21). -/
  txq_depth : Params.within p.txqDepth g.txq.length = true
  /-- Every packet in `SEG.TXQ` has the form of R59. -/
  txq_form : ∀ q ∈ g.txq, emittedForm q = true

/-- The invariants of DEC. -/
structure DecState.Inv (p : Params) (d : DecState) : Prop where
  /-- No run is open from one call to the next (R155). -/
  idle_inrun : d.mode = .idle → d.inrun = false
  /-- `DEC.DONE` is 1 only from `DEC.END` until the next `DEC.BEGIN` (R24). -/
  open_done : d.mode = .opened → d.done = false
  /-- A failed call holds no data and no run (R102). -/
  err_empty : d.err ≠ none → d.acc = [] ∧ d.bounds = [] ∧ d.inrun = false
  /-- `DEC.ERR` never holds 1 (R27). -/
  err_kind : d.err ≠ some .emptyPayload
  /-- The boundaries stand in the order the messages were completed (R24). -/
  bounds_sorted : d.bounds.Pairwise (· ≤ ·)
  /-- Every boundary lies within `DEC.ACC` (R24). -/
  bounds_le : ∀ b ∈ d.bounds, b ≤ d.acc.length
  /-- With no run open, `DEC.ACC` ends where the last message ends (R24). -/
  acc_closed : d.err = none → d.inrun = false → d.acc.length = d.bounds.getLastD 0
  /-- A packet adds at most 6 bytes (R37). -/
  acc_size : d.acc.length ≤ 6 * d.npkt
  /-- A packet completes at most one message (R105, R108). -/
  bounds_size : d.bounds.length ≤ d.npkt
  /-- `DEC.NPKT` is at most `MAX_PKTS` (R27). -/
  npkt_max : Params.within p.maxPkts d.npkt = true

/-- The invariant of the machine. -/
structure State.Inv (s : State) : Prop where
  params : s.params.legal = true
  seg : s.seg.Inv s.params
  dec : s.dec.Inv s.params

/-- `DEC` looks at the next packet (R102): a call is open, has room, and has not failed. -/
abbrev State.examines (s : State) : Prop :=
  s.dec.mode = .opened ∧ Params.reached s.params.maxPkts s.dec.npkt = false ∧ s.dec.err = none

/-- SEG is ready to emit (R87): a message runs and the queue has room. -/
abbrev State.emits (s : State) : Prop :=
  s.seg.mode = .run ∧ Params.reached s.params.txqDepth s.seg.txq.length = false

/-- A call that has failed with `e` at a packet whose upper half is `head` (R102, R129): the packet is
counted and recorded, the error is fixed, and the data of the call is gone. -/
def DecState.failedAt (d : DecState) (head : BitVec 16) (e : ErrKind) : DecState :=
  { d with npkt := d.npkt + 1, fields := head, err := some e, acc := [], bounds := [], inrun := false }

/-- A packet of the run grammar (R111), by the status nibble of an accepted packet. -/
def packetStatus (p : Packet) : Nat := (unpack p.word0).status.toNat

/-- A packet that passes the two tests before the status (R103 (a)). -/
def passesTests (p : Packet) : Bool :=
  (unpack p.word0).mt == Config.mtSysEx7 && (unpack p.word0).count.toNat ≤ 6

/-- One run as its sequence of statuses (R9): `one`, or `start`, `n` times `continue`, `end`. -/
inductive RunShape where
  | single
  | multi (conts : Nat)
deriving DecidableEq, Repr

/-- The statuses of a run. -/
def RunShape.statuses : RunShape → List Nat
  | .single => [0]
  | .multi n => 1 :: (List.replicate n 2 ++ [3])

end Sys2Proof.Machine
end

