-- ==== Sys2Proof/Certificates/Slice0/Obligations.lean ====
section
/-! DEFINITION. The statements of this row. Each says in its docstring which rule or section of the
spec it formalises; the registry OBLIGATIONS.json carries the same list. -/

open Sys2Proof Sys2Proof.Machine

/-! ### The packet format -/

/-- The opcode table (30_encoding.md section 3): no bit of a packet is dropped by the decoder. -/
def Obligations.DecodeEncodeRoundTrip : Prop :=
  ∀ i : Instr, i.wellFormed = true → decode (encode i) = i

/-- The opcode table (30_encoding.md section 3): every packet is the encoding of a well-formed
instruction. -/
def Obligations.EncodeDecodeRoundTrip : Prop :=
  ∀ p : Packet, (decode p).wellFormed = true ∧ encode (decode p) = p

/-- Every 64-bit value matches exactly one row of the opcode table, and the decoder finds it. -/
def Obligations.EveryPacketHasOneRow : Prop :=
  ∀ p : Packet, tableRows.filter (fun r => r.holds p) = [rowOf (decode p)]

/-- R46, R47: the words of a packet as one expression each, and the place of every field. -/
def Obligations.PacketWordsLayout : Prop :=
  ∀ (group status count : Nibble) (b0 b1 b2 b3 b4 b5 : Byte),
    let p := sysExPacket group status count b0 b1 b2 b3 b4 b5
    p.word0 =
        (0x3#32 <<< 28) ||| (group.zeroExtend 32 <<< 24) ||| (status.zeroExtend 32 <<< 20)
          ||| (count.zeroExtend 32 <<< 16) ||| (b0.zeroExtend 32 <<< 8) ||| b1.zeroExtend 32
    ∧ p.word1 =
        (b2.zeroExtend 32 <<< 24) ||| (b3.zeroExtend 32 <<< 16) ||| (b4.zeroExtend 32 <<< 8)
          ||| b5.zeroExtend 32
    ∧ p.word0.toNat / 2 ^ 28 = 3
    ∧ p.word0.toNat / 2 ^ 24 % 2 ^ 4 = group.toNat
    ∧ p.word0.toNat / 2 ^ 20 % 2 ^ 4 = status.toNat
    ∧ p.word0.toNat / 2 ^ 16 % 2 ^ 4 = count.toNat
    ∧ p.word0.toNat / 2 ^ 8 % 2 ^ 8 = b0.toNat
    ∧ p.word0.toNat % 2 ^ 8 = b1.toNat
    ∧ p.word1.toNat / 2 ^ 24 = b2.toNat
    ∧ p.word1.toNat / 2 ^ 16 % 2 ^ 8 = b3.toNat
    ∧ p.word1.toNat / 2 ^ 8 % 2 ^ 8 = b4.toNat
    ∧ p.word1.toNat % 2 ^ 8 = b5.toNat

/-- R47, R70: what `pack` writes, padding included, and the largest first word. -/
def Obligations.PackPlacesBytes : Prop :=
  ∀ (group status : Nibble) (chunk : List Byte), chunk.length ≤ 6 →
    let b (i : Nat) : Word := if h : i < chunk.length then chunk[i].zeroExtend 32 else 0#32
    let p := pack group status chunk
    p.word0 =
        (0x3#32 <<< 28) ||| (group.zeroExtend 32 <<< 24) ||| (status.zeroExtend 32 <<< 20)
          ||| (BitVec.ofNat 32 chunk.length <<< 16) ||| (b 0 <<< 8) ||| b 1
    ∧ p.word1 = (b 2 <<< 24) ||| (b 3 <<< 16) ||| (b 4 <<< 8) ||| b 5
    ∧ p.word0.toNat ≤ 0x3FF6FFFF
    ∧ (chunk.length ≤ 1 → p.word0.toNat % 2 ^ 8 = 0)
    ∧ (chunk.length ≤ 2 → p.word1 = 0#32)

/-- R71: the four fields of a word, total on all words. -/
def Obligations.UnpackReadsFields : Prop :=
  ∀ w : Word,
    (unpack w).mt.toNat = w.toNat / 2 ^ 28
    ∧ (unpack w).group.toNat = w.toNat / 2 ^ 24 % 2 ^ 4
    ∧ (unpack w).status.toNat = w.toNat / 2 ^ 20 % 2 ^ 4
    ∧ (unpack w).count.toNat = w.toNat / 2 ^ 16 % 2 ^ 4

/-- R73: packing and unpacking undo each other; the second direction fails without zero padding. -/
def Obligations.MarshallingRoundTrip : Prop :=
  (∀ (group status : Nibble) (chunk : List Byte), chunk.length ≤ 6 →
    let p := pack group status chunk
    unpack p.word0
        = { mt := 0x3#4, group := group, status := status, count := BitVec.ofNat 4 chunk.length }
    ∧ (unpack p.word0).count.toNat = chunk.length
    ∧ payloadOf p chunk.length = chunk)
  ∧ (∀ p : Packet,
      let f := unpack p.word0
      f.mt = 0x3#4 → f.count.toNat ≤ 6 → (∀ b ∈ p.slots.drop f.count.toNat, b = 0#8) →
        pack f.group f.status (payloadOf p f.count.toNat) = p)
  ∧ (∀ p : Packet,
      let f := unpack p.word0
      f.mt = 0x3#4 → f.count.toNat ≤ 6 → (∃ b ∈ p.slots.drop f.count.toNat, b ≠ 0#8) →
        pack f.group f.status (payloadOf p f.count.toNat) ≠ p)

/-- Words written out from the encodings of R46, R47 and R53, one for each row of the table; a sanity
statement (95_test_vectors.md sections 2.3 and 2.6). -/
def Obligations.SpecWordsDecode : Prop :=
  decode { word0 := 0x30047E00#32, word1 := 0x06010000#32 }
      = .sx7One 0#4 4#4 0x7E#8 0x00#8 0x06#8 0x01#8 0#8 0#8
  ∧ decode { word0 := 0x35160102#32, word1 := 0x03040506#32 }
      = .sx7Start 5#4 6#4 0x01#8 0x02#8 0x03#8 0x04#8 0x05#8 0x06#8
  ∧ decode { word0 := 0x39268081#32, word1 := 0x82838485#32 }
      = .sx7Cont 9#4 6#4 0x80#8 0x81#8 0x82#8 0x83#8 0x84#8 0x85#8
  ∧ decode { word0 := 0x35310700#32, word1 := 0x00000000#32 }
      = .sx7End 5#4 1#4 0x07#8 0#8 0#8 0#8 0#8 0#8
  ∧ decode { word0 := 0x30420102#32, word1 := 0x00000000#32 }
      = .sx7RsvdSt4to7 4#4 0#4 2#4 0x01#8 0x02#8 0#8 0#8 0#8 0#8
  ∧ decode { word0 := 0x30910102#32, word1 := 0x00000000#32 }
      = .sx7RsvdSt8to15 9#4 0#4 1#4 0x01#8 0x02#8 0#8 0#8 0#8 0#8
  ∧ decode { word0 := 0x10F80000#32, word1 := 0x00000000#32 } = .notSx7Mt0to1 1#4 0x0F80000#28 0#32
  ∧ decode { word0 := 0x20903C64#32, word1 := 0x00000000#32 } = .notSx7Mt2 2#4 0x0903C64#28 0#32
  ∧ decode { word0 := 0x40903C00#32, word1 := 0x12340000#32 }
      = .notSx7Mt4to7 4#4 0x0903C00#28 0x12340000#32
  ∧ decode { word0 := 0xF0F70000#32, word1 := 0x00000000#32 } = .notSx7Mt8to15 15#4 0x0F70000#28 0#32

/-! ### The frame parser and the status rule -/

/-- R66: the ends are removed each on its own, under the one test on the length as given. A message of
more than 3 bytes is written here as its first byte, what is between, and its last byte. -/
def Obligations.StripRemovesEachEnd : Prop :=
  (∀ bytes : List Byte, bytes.length ≤ 3 → strip bytes = bytes)
  ∧ (∀ (a z : Byte) (mid : List Byte), 2 ≤ mid.length →
      strip (a :: (mid ++ [z]))
        = (if a = 0xF0#8 then [] else [a]) ++ mid ++ (if z = 0xF7#8 then [] else [z]))

/-- The bounds on a stripped message (40_frame_and_fields.md section 1): a non-empty input never strips
to an empty payload. -/
def Obligations.StripLengthBounds : Prop :=
  ∀ bytes : List Byte,
    (3 < bytes.length →
      bytes.length - 2 ≤ (strip bytes).length ∧ (strip bytes).length ≤ bytes.length
        ∧ 2 ≤ (strip bytes).length)
    ∧ (bytes.length ≤ 3 → (strip bytes).length = bytes.length)
    ∧ (bytes ≠ [] → strip bytes ≠ [])

/-- R68, R69: the status and the byte-count of the next packet, on the length before it. -/
def Obligations.StatusAndCountRule : Prop :=
  ∀ remaining : Nat, 1 ≤ remaining →
    (remaining ≤ 6 → statusOf true remaining = 0#4 ∧ statusOf false remaining = 3#4)
    ∧ (6 < remaining → statusOf true remaining = 1#4 ∧ statusOf false remaining = 2#4)
    ∧ countOf remaining = min remaining 6
    ∧ 1 ≤ countOf remaining ∧ countOf remaining ≤ 6

/-! ### SEG -/

/-- R81: `SEG.SETGROUP` is always taken, writes `SEG.GROUP` and nothing else, changes no packet of a
running message, and the next accepted message carries the group; without the command it is 0. -/
def Obligations.SetGroupEffect : Prop :=
  (∀ (s : State) (g : Nibble),
    s.held (.setGroup g) = false
    ∧ s.command (.setGroup g) = .next { s with seg := { s.seg with group := g } }
    ∧ ∀ t, s.segEmit = .next t →
        ({ s with seg := { s.seg with group := g } } : State).segEmit
          = .next { t with seg := { t.seg with group := g } })
  ∧ (∀ (s : State) (g : Nibble) (bytes : List Byte), s.seg.mode = .idle → bytes ≠ [] →
      Params.within s.params.maxLen bytes.length = true →
      ∃ t, ({ s with seg := { s.seg with group := g } } : State).command (.submit bytes) = .next t
        ∧ t.seg.grpL = g)
  ∧ State.reset.seg.group = 0#4

/-- R82: `SEG.SUBMIT`, whole: accepted, failed on the empty input, refused beyond `MAX_LEN`, held while
a message runs. -/
def Obligations.SubmitEffect : Prop :=
  ∀ (s : State) (bytes : List Byte),
    (s.seg.mode = .run → s.held (.submit bytes) = true)
    ∧ (s.seg.mode = .idle → s.held (.submit bytes) = false)
    ∧ (s.seg.mode = .idle → bytes = [] →
        s.command (.submit bytes)
          = .next { s with seg := { s.seg with done := true, err := some .emptyPayload } })
    ∧ (s.seg.mode = .idle → bytes ≠ [] → Params.within s.params.maxLen bytes.length = true →
        s.command (.submit bytes)
            = .next { s with seg :=
                { s.seg with
                  buf := strip bytes
                  len := (strip bytes).length
                  pos := 0
                  first := true
                  grpL := s.seg.group
                  done := false
                  err := none
                  mode := .run } }
          ∧ 1 ≤ (strip bytes).length)
    ∧ (s.seg.mode = .idle → Params.within s.params.maxLen bytes.length = false →
        s.command (.submit bytes) = .refused .segMessageTooLong)

/-- R83: `SEG.EMIT.ONE` pushes the whole payload as `SX7.ONE` and ends the message. -/
def Obligations.EmitOneEffect : Prop :=
  ∀ s : State, s.Inv → s.emits → s.seg.first = true → s.seg.remaining ≤ 6 →
    let p := pack s.seg.grpL 0#4 s.seg.buf
    s.segEmit = s.emitOne
    ∧ s.emitOne
        = .next { s with seg :=
            { s.seg with
              txq := s.seg.txq ++ [p]
              pos := s.seg.len
              first := false
              mode := .idle
              done := true
              err := none } }
    ∧ (∃ b0 b1 b2 b3 b4 b5,
        decode p = .sx7One s.seg.grpL (BitVec.ofNat 4 s.seg.len) b0 b1 b2 b3 b4 b5)
    ∧ payloadOf p s.seg.len = s.seg.buf

/-- R84: `SEG.EMIT.START` pushes the first 6 bytes as `SX7.START` and the message goes on. -/
def Obligations.EmitStartEffect : Prop :=
  ∀ s : State, s.Inv → s.emits → s.seg.first = true → 6 < s.seg.remaining →
    let p := pack s.seg.grpL 1#4 (s.seg.buf.take 6)
    s.segEmit = s.emitStart
    ∧ s.emitStart
        = .next { s with seg :=
            { s.seg with txq := s.seg.txq ++ [p], pos := 6, first := false } }
    ∧ (∃ b0 b1 b2 b3 b4 b5, decode p = .sx7Start s.seg.grpL 6#4 b0 b1 b2 b3 b4 b5)
    ∧ payloadOf p 6 = s.seg.buf.take 6

/-- R85: `SEG.EMIT.CONT` pushes the next 6 bytes as `SX7.CONT` and the message goes on. -/
def Obligations.EmitContEffect : Prop :=
  ∀ s : State, s.Inv → s.emits → s.seg.first = false → 6 < s.seg.remaining →
    let chunk := (s.seg.buf.drop s.seg.pos).take 6
    let p := pack s.seg.grpL 2#4 chunk
    s.segEmit = s.emitCont
    ∧ s.emitCont
        = .next { s with seg :=
            { s.seg with txq := s.seg.txq ++ [p], pos := s.seg.pos + 6, first := false } }
    ∧ s.seg.pos + 6 < s.seg.len
    ∧ (∃ b0 b1 b2 b3 b4 b5, decode p = .sx7Cont s.seg.grpL 6#4 b0 b1 b2 b3 b4 b5)
    ∧ payloadOf p 6 = chunk

/-- R86: `SEG.EMIT.END` pushes the 1 to 6 bytes left as `SX7.END` and ends the message. -/
def Obligations.EmitEndEffect : Prop :=
  ∀ s : State, s.Inv → s.emits → s.seg.first = false → s.seg.remaining ≤ 6 →
    let chunk := s.seg.buf.drop s.seg.pos
    let p := pack s.seg.grpL 3#4 chunk
    s.segEmit = s.emitEnd
    ∧ s.emitEnd
        = .next { s with seg :=
            { s.seg with
              txq := s.seg.txq ++ [p]
              pos := s.seg.len
              first := false
              mode := .idle
              done := true
              err := none } }
    ∧ 1 ≤ s.seg.remaining
    ∧ (∃ b0 b1 b2 b3 b4 b5,
        decode p = .sx7End s.seg.grpL (BitVec.ofNat 4 s.seg.remaining) b0 b1 b2 b3 b4 b5)
    ∧ payloadOf p s.seg.remaining = chunk

/-- When SEG steps and when it waits (41_segmenter.md section 3): with no command from the host, an
idle SEG and a SEG with a full queue take no step, which is the model's waiting step (assumption 5),
and otherwise a step packs 1 to 6 bytes. -/
def Obligations.EmitsOrHolds : Prop :=
  ∀ s : State, s.Inv → s.port.inbox = [] →
    (s.seg.mode = .idle → step s = .next s)
    ∧ (s.seg.mode = .run → Params.reached s.params.txqDepth s.seg.txq.length = true →
        step s = .next s)
    ∧ (s.emits → ∃ t, step s = .next t
        ∧ t.seg.pos = s.seg.pos + min s.seg.remaining 6
        ∧ s.seg.pos < t.seg.pos ∧ t.seg.pos ≤ t.seg.len
        ∧ t.seg.len = s.seg.len
        ∧ t.seg.txq.length = s.seg.txq.length + 1
        ∧ (t.seg.mode = .idle ↔ t.seg.pos = t.seg.len)
        ∧ t.dec = s.dec ∧ t.port = s.port ∧ t.params = s.params)

/-- The step machine and `segment` agree (41_segmenter.md section 4): from an idle SEG, the submission
and one step for each packet leave the queue with `segment`'s packets behind it. The inbox the
submission stands in is the model's own (assumption 2). -/
def Obligations.SegmentMachineAgrees : Prop :=
  ∀ (s : State) (bytes : List Byte), s.Inv → s.seg.mode = .idle →
    s.port.inbox = [.submit bytes] → Params.within s.params.maxLen bytes.length = true →
    match segment s.seg.group bytes with
    | .ok out =>
      Params.within s.params.txqDepth (s.seg.txq.length + out.length) = true →
        ∃ t, Sys2Proof.core.run (1 + out.length) s = .next t
          ∧ t.seg.txq = s.seg.txq ++ out
          ∧ t.seg.mode = .idle ∧ t.seg.result = .ok
          ∧ t.seg.group = s.seg.group
          ∧ t.dec = s.dec ∧ t.params = s.params
          ∧ t.port.inbox = [] ∧ t.port.replies = s.port.replies
    | .error e =>
      e = .emptyPayload
      ∧ ∃ t, Sys2Proof.core.run 1 s = .next t
          ∧ t.seg.txq = s.seg.txq
          ∧ t.seg.mode = .idle ∧ t.seg.result = .error .emptyPayload
          ∧ t.dec = s.dec ∧ t.params = s.params
          ∧ t.port.inbox = [] ∧ t.port.replies = s.port.replies

/-- What `segment` gives (41_segmenter.md section 4): the number of packets, what each holds, its
status, and the payload they carry together. -/
def Obligations.SegmentShape : Prop :=
  ∀ (group : Nibble) (bytes : List Byte), bytes ≠ [] →
    let p := strip bytes
    ∃ out, segment group bytes = .ok out
      ∧ out.length = (p.length + 5) / 6
      ∧ (∀ k, k < out.length →
          out[k]? = some (pack group
            (if p.length ≤ 6 then 0#4 else if k = 0 then 1#4
              else if k + 1 = out.length then 3#4 else 2#4)
            (subseq p (6 * k) (min (6 * k + 6) p.length))))
      ∧ (out.map fun q => payloadOf q (unpack q.word0).count.toNat).flatten = p

/-- The subset of packets SEG emits (30_encoding.md section 4): every packet of a run has the run's
group and the emitted form. -/
def Obligations.SegmentEmitsOnlyForm : Prop :=
  ∀ (group : Nibble) (bytes : List Byte) (out : List Packet), segment group bytes = .ok out →
    ∀ q ∈ out, emittedForm q = true ∧ (unpack q.word0).group = group

/-- `SEG.SUBMIT` while a message runs has no step (41_segmenter.md section 4): it is not dropped and not
merged into the running message, SEG's own emit steps go on, and it is taken once SEG is idle. The
inbox it waits in is the model's own (assumption 2). -/
def Obligations.SubmitHeldWhileRunning : Prop :=
  ∀ (s : State) (bytes : List Byte) (rest : List HostCmd), s.port.inbox = .submit bytes :: rest →
    (s.seg.mode = .run → ∀ t, step s = .next t →
      (∃ left, t.port.inbox = .submit bytes :: left)
      ∧ ((t.seg.buf = s.seg.buf ∧ t.seg.len = s.seg.len ∧ t.seg.grpL = s.seg.grpL)
        ∨ ∃ left, s.choose = .take .reset left))
    ∧ (rest = [] → s.Inv → s.emits → ∃ t, step s = .next t ∧ s.seg.pos < t.seg.pos
        ∧ t.seg.pos ≤ t.seg.len ∧ (t.seg.mode = .idle ↔ t.seg.pos = t.seg.len))
    ∧ (s.seg.mode = .idle → step s = (s.fetched rest).command (.submit bytes))

/-- `SEG.POP` (41_segmenter.md section 3): the head of the queue goes to the host; on an empty queue
the command waits until SEG pushes. Inbox, replies and the waiting step are the model's own
(assumptions 2 and 5). -/
def Obligations.PopTakesHead : Prop :=
  (∀ (s : State) (p : Packet) (rest : List Packet), s.seg.txq = p :: rest →
    s.command .pop
      = .next { s with
          seg := { s.seg with txq := rest }
          port := { s.port with replies := s.port.replies ++ [.packet p] } })
  ∧ (∀ s : State, s.seg.txq = [] → s.port.inbox = [.pop] →
      (s.emitReady = false → step s = .next s)
      ∧ (s.emitReady = true → s.Inv → ∃ t, step s = .next t ∧ t.port = s.port
          ∧ t.held .pop = false))

/-! ### DEC -/

/-- R101: `DEC.BEGIN` opens a call with nothing of the one before; refused while a call is open. -/
def Obligations.BeginOpensFreshCall : Prop :=
  ∀ s : State,
    (s.dec.mode = .idle →
      s.command .decBegin
        = .next { s with dec :=
            { mode := .opened, inrun := false, acc := [], bounds := [], err := none, done := false,
              fields := 0#16, npkt := 0 } })
    ∧ (s.dec.mode = .opened → s.command .decBegin = .refused .decAlreadyOpen)

/-- R105: `SX7.ONE` is a whole message with no run open, and `MalformedRun` inside a run. -/
def Obligations.OnePacketEffect : Prop :=
  ∀ (group count : Nibble) (b0 b1 b2 b3 b4 b5 : Byte) (s : State), s.examines → count.toNat ≤ 6 →
    (s.dec.inrun = false →
      exec (.sx7One group count b0 b1 b2 b3 b4 b5) s
        = .next { s with dec :=
            { s.dec with
              npkt := s.dec.npkt + 1
              fields := headOf 0x3#4 group 0#4 count
              acc := s.dec.acc ++ [b0, b1, b2, b3, b4, b5].take count.toNat
              bounds := s.dec.bounds ++ [s.dec.acc.length + count.toNat] } })
    ∧ (s.dec.inrun = true →
      exec (.sx7One group count b0 b1 b2 b3 b4 b5) s
        = .next { s with dec := s.dec.failedAt (headOf 0x3#4 group 0#4 count) .malformedRun })

/-- R106: `SX7.START` opens a run, and is `MalformedRun` inside one. -/
def Obligations.StartPacketEffect : Prop :=
  ∀ (group count : Nibble) (b0 b1 b2 b3 b4 b5 : Byte) (s : State), s.examines → count.toNat ≤ 6 →
    (s.dec.inrun = false →
      exec (.sx7Start group count b0 b1 b2 b3 b4 b5) s
        = .next { s with dec :=
            { s.dec with
              npkt := s.dec.npkt + 1
              fields := headOf 0x3#4 group 1#4 count
              acc := s.dec.acc ++ [b0, b1, b2, b3, b4, b5].take count.toNat
              inrun := true } })
    ∧ (s.dec.inrun = true →
      exec (.sx7Start group count b0 b1 b2 b3 b4 b5) s
        = .next { s with dec := s.dec.failedAt (headOf 0x3#4 group 1#4 count) .malformedRun })

/-- R107: `SX7.CONT` goes on with an open run, and is `MalformedRun` with none open. -/
def Obligations.ContPacketEffect : Prop :=
  ∀ (group count : Nibble) (b0 b1 b2 b3 b4 b5 : Byte) (s : State), s.examines → count.toNat ≤ 6 →
    (s.dec.inrun = true →
      exec (.sx7Cont group count b0 b1 b2 b3 b4 b5) s
        = .next { s with dec :=
            { s.dec with
              npkt := s.dec.npkt + 1
              fields := headOf 0x3#4 group 2#4 count
              acc := s.dec.acc ++ [b0, b1, b2, b3, b4, b5].take count.toNat } })
    ∧ (s.dec.inrun = false →
      exec (.sx7Cont group count b0 b1 b2 b3 b4 b5) s
        = .next { s with dec := s.dec.failedAt (headOf 0x3#4 group 2#4 count) .malformedRun })

/-- R108: `SX7.END` closes an open run, and is `MalformedRun` with none open. -/
def Obligations.EndPacketEffect : Prop :=
  ∀ (group count : Nibble) (b0 b1 b2 b3 b4 b5 : Byte) (s : State), s.examines → count.toNat ≤ 6 →
    (s.dec.inrun = true →
      exec (.sx7End group count b0 b1 b2 b3 b4 b5) s
        = .next { s with dec :=
            { s.dec with
              npkt := s.dec.npkt + 1
              fields := headOf 0x3#4 group 3#4 count
              acc := s.dec.acc ++ [b0, b1, b2, b3, b4, b5].take count.toNat
              bounds := s.dec.bounds ++ [s.dec.acc.length + count.toNat]
              inrun := false } })
    ∧ (s.dec.inrun = false →
      exec (.sx7End group count b0 b1 b2 b3 b4 b5) s
        = .next { s with dec := s.dec.failedAt (headOf 0x3#4 group 3#4 count) .malformedRun })

/-- R109: a reserved status is `MalformedRun`, whatever `DEC.INRUN` is. -/
def Obligations.ReservedStatusEffect : Prop :=
  ∀ (status group count : Nibble) (b0 b1 b2 b3 b4 b5 : Byte) (s : State), s.examines →
    count.toNat ≤ 6 →
    exec (.sx7RsvdSt4to7 status group count b0 b1 b2 b3 b4 b5) s
        = .next { s with dec := s.dec.failedAt (headOf 0x3#4 group status count) .malformedRun }
    ∧ exec (.sx7RsvdSt8to15 status group count b0 b1 b2 b3 b4 b5) s
        = .next { s with dec := s.dec.failedAt (headOf 0x3#4 group status count) .malformedRun }

/-- R110: a byte-count of 7 to 15 is `InvalidByteCount`, whatever the status and `DEC.INRUN` are. -/
def Obligations.ByteCountEffect : Prop :=
  ∀ (status group count : Nibble) (b0 b1 b2 b3 b4 b5 : Byte) (s : State), s.examines →
    6 < count.toNat →
    exec (.sx7One group count b0 b1 b2 b3 b4 b5) s
        = .next { s with dec := s.dec.failedAt (headOf 0x3#4 group 0#4 count) .invalidByteCount }
    ∧ exec (.sx7Start group count b0 b1 b2 b3 b4 b5) s
        = .next { s with dec := s.dec.failedAt (headOf 0x3#4 group 1#4 count) .invalidByteCount }
    ∧ exec (.sx7Cont group count b0 b1 b2 b3 b4 b5) s
        = .next { s with dec := s.dec.failedAt (headOf 0x3#4 group 2#4 count) .invalidByteCount }
    ∧ exec (.sx7End group count b0 b1 b2 b3 b4 b5) s
        = .next { s with dec := s.dec.failedAt (headOf 0x3#4 group 3#4 count) .invalidByteCount }
    ∧ exec (.sx7RsvdSt4to7 status group count b0 b1 b2 b3 b4 b5) s
        = .next { s with dec := s.dec.failedAt (headOf 0x3#4 group status count) .invalidByteCount }
    ∧ exec (.sx7RsvdSt8to15 status group count b0 b1 b2 b3 b4 b5) s
        = .next { s with dec := s.dec.failedAt (headOf 0x3#4 group status count) .invalidByteCount }

/-- R104: a packet of another message type is `UnsupportedMessageType`, always, in or out of a run;
only the upper half of its first word is recorded. -/
def Obligations.ForeignPacketEffect : Prop :=
  ∀ (mt : Nibble) (rest : BitVec 28) (word1 : Word) (s : State), s.examines →
    let failed : State :=
      { s with dec := s.dec.failedAt (upperHalf (mt ++ rest)) .unsupportedMessageType }
    exec (.notSx7Mt0to1 mt rest word1) s = .next failed
    ∧ exec (.notSx7Mt2 mt rest word1) s = .next failed
    ∧ exec (.notSx7Mt4to7 mt rest word1) s = .next failed
    ∧ exec (.notSx7Mt8to15 mt rest word1) s = .next failed

/-- After the first error the packets of a call are counted and otherwise ignored (42_decoder.md
section 3, the first-error rule). -/
def Obligations.FailedCallIgnoresPackets : Prop :=
  ∀ (i : Instr) (s : State), s.dec.mode = .opened →
    Params.reached s.params.maxPkts s.dec.npkt = false → s.dec.err ≠ none →
    exec i s = .next { s with dec := { s.dec with npkt := s.dec.npkt + 1 } }

/-- R115: the commands DEC refuses, each by name. -/
def Obligations.DecoderRefusals : Prop :=
  (∀ (i : Instr) (s : State),
    (s.dec.mode = .idle → exec i s = .refused .decPktNotOpen)
    ∧ (s.dec.mode = .opened → s.params.maxPkts = some s.dec.npkt →
        exec i s = .refused .decCallFull))
  ∧ (∀ s : State,
      (s.dec.mode = .idle → s.command .decEnd = .refused .decEndNotOpen)
      ∧ (s.dec.mode = .opened → s.command .decBegin = .refused .decAlreadyOpen)
      ∧ s.held .decBegin = false ∧ s.held .decEnd = false ∧ ∀ p, s.held (.decPkt p) = false)

/-- R112: `DEC.END`, with an open run, after an error, and with a good result; the result then stays
until the next `DEC.BEGIN` (or the reset, which R112 does not name). What is returned stands in the
replies. -/
def Obligations.EndOfCallEffect : Prop :=
  ∀ s : State, s.dec.mode = .opened →
    (s.dec.err = none → s.dec.inrun = false →
      s.command .decEnd
        = .next { s with
            dec := { s.dec with done := true, mode := .idle }
            port := { s.port with
              replies := s.port.replies ++ [.decOk s.dec.acc s.dec.bounds] } })
    ∧ (s.dec.err = none → s.dec.inrun = true →
      s.command .decEnd
        = .next { s with
            dec := { s.dec with
              err := some .malformedRun, acc := [], bounds := [], inrun := false
              done := true, mode := .idle }
            port := { s.port with replies := s.port.replies ++ [.decErr .malformedRun] } })
    ∧ (∀ e, s.dec.err = some e →
      s.command .decEnd
        = .next { s with
            dec := { s.dec with done := true, mode := .idle }
            port := { s.port with replies := s.port.replies ++ [.decErr e] } })
    ∧ (∀ (t u : State) (c : HostCmd), s.command .decEnd = .next t → c ≠ .decBegin → c ≠ .reset →
        t.command c = .next u → u.dec = t.dec)

/-- The call and the function agree (42_decoder.md section 5): a call made of `DEC.BEGIN`, one `DEC.PKT` for each packet and `DEC.END` returns
`decode(packets)`, whatever the registers held before and however SEG's own steps fall between the
commands; with SEG idle or held it takes one step for each command. Inbox, schedule and replies are
the model's own (assumption 2). -/
def Obligations.CallAgreesWithDecode : Prop :=
  ∀ (s : State) (packets : List Packet), s.Inv → s.dec.mode = .idle →
    Params.within s.params.maxPkts packets.length = true →
    s.port.inbox = .decBegin :: (packets.map HostCmd.decPkt ++ [.decEnd]) →
    ∃ (n : Nat) (t : State), Sys2Proof.core.run n s = .next t
      ∧ t.port.replies = s.port.replies ++ [callReply (decodeCall packets)]
      ∧ t.dec.mode = .idle ∧ t.dec.done = true ∧ t.dec.npkt = packets.length
      ∧ t.port.inbox = [] ∧ t.params = s.params
      ∧ (s.emitReady = false → n = packets.length + 2 ∧ t.seg = s.seg)

/-- R114: decoding what was segmented gives the stripped message, as one message. -/
def Obligations.DecodeOfSegment : Prop :=
  ∀ (group : Nibble) (bytes : List Byte), bytes ≠ [] →
    ∃ out, segment group bytes = .ok out
      ∧ decodeCall out = .ok (strip bytes, [(strip bytes).length])

/-- The run grammar (42_decoder.md section 3, the run state machine): of the packets that pass the
message-type and byte-count tests, the accepted status sequences are those of zero or more runs. -/
def Obligations.AcceptedStatusSequences : Prop :=
  ∀ packets : List Packet, (∀ p ∈ packets, passesTests p = true) →
    ((∃ result, decodeCall packets = .ok result)
      ↔ ∃ runs : List RunShape,
          packets.map packetStatus = (runs.map RunShape.statuses).flatten)

/-- The run state machine (42_decoder.md section 3), as the table gives it: for every packet with
message type 3 and a legal byte-count, the new `DEC.INRUN` and whether a message is complete, or
`MalformedRun`. -/
def Obligations.RunStateMachine : Prop :=
  ∀ (i : Instr) (s : State), i.wellFormed = true → i.countLegal = true → s.examines →
    ∃ t, exec i s = .next t ∧
      match runNext s.dec.inrun (unpack (encode i).word0).status with
      | none => t.dec.err = some .malformedRun
      | some (inrun, complete) =>
        t.dec.err = none ∧ t.dec.inrun = inrun
          ∧ t.dec.bounds = if complete then s.dec.bounds ++ [t.dec.acc.length] else s.dec.bounds

/-- The frame of every packet (42_decoder.md section 3, 10_state.md sections 3 and 5): SEG, the host's
side, the parameters, `DEC.MODE` and `DEC.DONE` are unchanged; the accumulator grows by at most 6
bytes or is emptied by an error. -/
def Obligations.PacketFrame : Prop :=
  ∀ (i : Instr) (s t : State), exec i s = .next t →
    t.seg = s.seg ∧ t.port = s.port ∧ t.params = s.params
    ∧ t.dec.mode = s.dec.mode ∧ t.dec.done = s.dec.done
    ∧ t.dec.npkt = s.dec.npkt + 1
    ∧ (t.dec.err = s.dec.err ∨ (s.dec.err = none ∧ t.dec.acc = [] ∧ t.dec.bounds = []
        ∧ t.dec.inrun = false))
    ∧ (t.dec.err = s.dec.err →
        ∃ more : List Byte, more.length ≤ 6 ∧ t.dec.acc = s.dec.acc ++ more
          ∧ (t.dec.bounds = s.dec.bounds
              ∨ t.dec.bounds = s.dec.bounds ++ [s.dec.acc.length + more.length]))

/-- `DEC.FIELDS` (10_state.md section 3): the upper half of the packet's first word, group included,
for every packet taken while there is no error. -/
def Obligations.FieldsRecordPacket : Prop :=
  ∀ (i : Instr) (s : State), s.examines →
    ∃ t, exec i s = .next t ∧ t.dec.fields = upperHalf (encode i).word0

/-- What DEC does not check (42_decoder.md section 5, 30_encoding.md section 4): two packets of message
type 3 that agree in status, byte-count and valid bytes have the same effect, whatever their groups
and padding, but for the record of the group in `DEC.FIELDS`. -/
def Obligations.GroupAndPaddingUnchecked : Prop :=
  ∀ (p q : Packet) (s t : State),
    (unpack p.word0).mt = 0x3#4 → (unpack q.word0).mt = 0x3#4 →
    (unpack p.word0).status = (unpack q.word0).status →
    (unpack p.word0).count = (unpack q.word0).count →
    payloadOf p (unpack p.word0).count.toNat = payloadOf q (unpack q.word0).count.toNat →
    exec (decode p) s = .next t →
    ∃ fields, exec (decode q) s = .next { t with dec := { t.dec with fields := fields } }

/-- The first error of a call sticks (10_state.md section 3, 60_exceptions.md section 5): only
`DEC.BEGIN` and the reset take it away, and no second error replaces it. -/
def Obligations.FirstErrorSticks : Prop :=
  ∀ (s t : State) (e : ErrKind), s.dec.err = some e → step s = .next t →
    t.dec.err = some e
    ∨ (∃ rest, s.choose = .take .decBegin rest ∧ t.dec = DecState.fresh)
    ∨ (∃ rest, s.choose = .take .reset rest ∧ t.dec = DecState.reset)

/-! ### The machine -/

/-- R29, R150: the reset puts every element of SEG and DEC at its reset value in one step, from every
state, and the state after reset has those values. -/
def Obligations.ResetValues : Prop :=
  let seg : SegState :=
    { mode := .idle, group := 0#4, grpL := 0#4, buf := [], len := 0, pos := 0, first := true,
      done := false, err := none, txq := [] }
  let dec : DecState :=
    { mode := .idle, inrun := false, acc := [], bounds := [], err := none, done := false,
      fields := 0#16, npkt := 0 }
  (∀ s : State, s.held .reset = false
    ∧ ∃ t, s.command .reset = .next t ∧ t.seg = seg ∧ t.dec = dec)
  ∧ State.reset.seg = seg ∧ State.reset.dec = dec
  ∧ seg.result = .none

/-- The model's choice (assumption 4): a reset leaves the host's side and the parameters as they are
(70_reset_and_hazards.md section 1 names elements of SEG and DEC only). -/
def Obligations.ResetKeepsHostSide : Prop :=
  ∀ s t : State, s.command .reset = .next t → t.port = s.port ∧ t.params = s.params

/-- The state after reset meets the invariant, for every legal choice of the parameters. -/
def Obligations.ResetMeetsInv : Prop :=
  ∀ p : Params, p.legal = true → ({ State.reset with params := p } : State).Inv

/-- Every step keeps the invariant (10_state.md): the cursor within the buffer, the queue holding only
emitted packets, the results among their legal values, the boundaries within the accumulator. -/
def Obligations.StepKeepsInv : Prop :=
  ∀ s t : State, s.Inv → step s = .next t → t.Inv

/-- No step of a state that meets the invariant faults (60_exceptions.md section 1: there is no fatal
error class; 41_segmenter.md section 3: no emit step can fail). -/
def Obligations.StepNeverFaults : Prop :=
  ∀ s : State, s.Inv → ∀ r, step s ≠ .fault r

/-- A step runs the decoded packet: when the host's command that steps is `DEC.PKT(p)`, the step is
`exec` of what `p` decodes to, on the state with that command taken out and nothing of SEG, DEC, the
parameters or the replies changed; and a placed word is run by the very next step, with a call opened
first where none is open. Inbox, schedule and the placing are the model's own (assumption 2). -/
def Obligations.StepRunsDecodedPacket : Prop :=
  (∀ (s : State) (p : Packet) (rest : List HostCmd), s.choose = .take (.decPkt p) rest →
    (decode p).wellFormed = true
    ∧ step s = exec (decode p) (s.fetched rest)
    ∧ (s.fetched rest).seg = s.seg ∧ (s.fetched rest).dec = s.dec
    ∧ (s.fetched rest).params = s.params
    ∧ (s.fetched rest).port.inbox = rest
    ∧ (s.fetched rest).port.replies = s.port.replies
    ∧ (s.fetched rest).port.freeReads = s.port.freeReads)
  ∧ (∀ (s : State) (nbits w : Nat), ∃ u : State,
      step (s.withFetchWord nbits w) = exec (decode (tablePacket nbits w)) u
      ∧ u.seg = s.seg ∧ u.params = s.params ∧ u.port = s.port
      ∧ (s.dec.mode = .opened → u.dec = s.dec)
      ∧ (s.dec.mode = .idle → u.dec = DecState.fresh))

/-- SEG and DEC share no state (10_state.md section 1, 20_memory.md section 4): SEG's emit step and a
DEC command give the same state in either order. -/
def Obligations.EmitCommutesWithDecoder : Prop :=
  ∀ (s t u : State) (c : HostCmd), (c = .decBegin ∨ c = .decEnd ∨ ∃ p, c = .decPkt p) →
    s.segEmit = .next t → s.command c = .next u →
    t.dec = s.dec ∧ u.seg = s.seg ∧ ∃ v, t.command c = .next v ∧ u.segEmit = .next v

/-- What moves `SEG.MODE` (10_state.md section 2): only a submission starts a message, and only its
last emit or the reset ends one. -/
def Obligations.OnlySubmitStartsMessage : Prop :=
  ∀ s t : State, s.Inv → step s = .next t →
    (s.seg.mode = .idle → t.seg.mode = .run →
      ∃ bytes rest, bytes ≠ [] ∧ s.choose = .take (.submit bytes) rest)
    ∧ (s.seg.mode = .run → t.seg.mode = .idle →
      (s.choose = .emit ∧ s.seg.remaining ≤ 6 ∧ t.seg.result = .ok)
      ∨ ∃ rest, s.choose = .take .reset rest)

/-- `SEG.TXQ` is first-in first-out (10_state.md section 2, 20_memory.md section 4): a step leaves it,
pushes one packet of the running message's group at the tail, gives the head to the host, or is the
reset. -/
def Obligations.QueueIsFirstInFirstOut : Prop :=
  ∀ s t : State, step s = .next t →
    t.seg.txq = s.seg.txq
    ∨ (s.choose = .emit ∧ ∃ p, t.seg.txq = s.seg.txq ++ [p]
        ∧ (unpack p.word0).group = s.seg.grpL ∧ (unpack p.word0).mt = 0x3#4)
    ∨ (∃ p rest, s.choose = .take .pop rest ∧ s.seg.txq = p :: t.seg.txq
        ∧ t.port.replies = s.port.replies ++ [.packet p])
    ∨ (∃ rest, s.choose = .take .reset rest ∧ t.seg.txq = [])

/-- What writes the group registers (10_state.md section 2): `SEG.GROUP` by `SEG.SETGROUP` and reset
only, `SEG.GRP_L` by a submission and reset only. -/
def Obligations.OnlySetGroupWritesGroup : Prop :=
  ∀ s t : State, step s = .next t →
    (t.seg.group ≠ s.seg.group →
      (∃ rest, s.choose = .take (.setGroup t.seg.group) rest) ∨ ∃ rest, s.choose = .take .reset rest)
    ∧ (t.seg.grpL ≠ s.seg.grpL →
      (∃ bytes rest, s.choose = .take (.submit bytes) rest ∧ t.seg.grpL = s.seg.group)
      ∨ ∃ rest, s.choose = .take .reset rest)

/-- DEC takes no step of its own (10_state.md section 1): every change of DEC state is caused by one of
the host commands that write it. -/
def Obligations.OnlyHostChangesDecoder : Prop :=
  ∀ s t : State, step s = .next t → t.dec ≠ s.dec →
    ∃ c rest, s.choose = .take c rest
      ∧ (c = .decBegin ∨ c = .decEnd ∨ c = .reset ∨ ∃ p, c = .decPkt p)

/-- The register reads (10_state.md section 5): each register's value goes to the host and the block is
unchanged. While a call is open and has not failed, what a read of `DEC.ACC` or `DEC.BOUNDS` gives is
a free value (assumption 3), so only the effect on the block is stated there. -/
def Obligations.RegisterReadsValue : Prop :=
  ∀ (s : State) (r : Reg),
    let answered (v : Reply) : Prop :=
      s.command (.readReg r)
        = .next { s with port := { s.port with replies := s.port.replies ++ [v] } }
    (r = .segGroup → answered (.nibble s.seg.group))
    ∧ (r = .segMode → answered (.bit (if s.seg.mode = .run then 1#1 else 0#1)))
    ∧ (r = .segDone → answered (.bit (if s.seg.done then 1#1 else 0#1)))
    ∧ (r = .segErr → answered (.code (match s.seg.err with
        | none => 0#3
        | some .emptyPayload => 1#3
        | some .unsupportedMessageType => 2#3
        | some .malformedRun => 3#3
        | some .invalidByteCount => 4#3)))
    ∧ (r = .decMode → answered (.bit (if s.dec.mode = .opened then 1#1 else 0#1)))
    ∧ (r = .decDone → answered (.bit (if s.dec.done then 1#1 else 0#1)))
    ∧ (r = .decErr → answered (.code (match s.dec.err with
        | none => 0#3
        | some .emptyPayload => 1#3
        | some .unsupportedMessageType => 2#3
        | some .malformedRun => 3#3
        | some .invalidByteCount => 4#3)))
    ∧ (r = .decFields → answered (.half s.dec.fields))
    ∧ (r = .decNpkt → answered (.count s.dec.npkt))
    ∧ (r = .decAcc → s.dec.err = none → s.dec.mode = .idle → answered (.bytes s.dec.acc))
    ∧ (r = .decBounds → s.dec.err = none → s.dec.mode = .idle → answered (.bounds s.dec.bounds))
    ∧ (r = .decAcc → s.dec.err ≠ none → answered (.bytes []))
    ∧ (r = .decBounds → s.dec.err ≠ none → answered (.bounds []))
    ∧ ∃ t, s.command (.readReg r) = .next t ∧ t.seg = s.seg ∧ t.dec = s.dec
        ∧ t.params = s.params ∧ t.port.inbox = s.port.inbox
        ∧ t.port.replies.length = s.port.replies.length + 1

/-- A call owes nothing to the calls before it (70_reset_and_hazards.md section 1): `DEC.BEGIN` leaves
one DEC state whatever was there, and an accepted submission leaves one SEG state but for the group
and the packets still in the queue. -/
def Obligations.CallsOweNothing : Prop :=
  (∀ s u t v : State, s.command .decBegin = .next t → u.command .decBegin = .next v →
    t.dec = v.dec)
  ∧ (∀ (s u t v : State) (bytes : List Byte), bytes ≠ [] → s.seg.mode = .idle → u.seg.mode = .idle →
      s.seg.group = u.seg.group →
      s.command (.submit bytes) = .next t → u.command (.submit bytes) = .next v →
      t.seg = { v.seg with txq := t.seg.txq } ∧ t.seg.txq = s.seg.txq)

/-- Copies of the block share nothing (60_exceptions.md section 7): a step of one copy is a step of its
own state and changes no other copy. -/
def Obligations.CopiesIndependent : Prop :=
  ∀ (cs ds : Copies) (k : Nat) (s : State), cs[k]? = some s → cs.stepAt k = .next ds →
    ds.length = cs.length
    ∧ (∃ t, step s = .next t ∧ ds[k]? = some t)
    ∧ ∀ j, j ≠ k → ds[j]? = cs[j]?

/-- `N_INST` is at least 1 (00_scope.md section 4): the copies after reset are a legal choice of the
parameters exactly where their number is, each is in the reset state, and no step of a copy takes the
legality away. That each copy carries parameters of its own is the model's choice (assumption 13). -/
def Obligations.CopiesStayLegal : Prop :=
  (∀ n : Nat, (Copies.reset n).length = n ∧ (∀ s ∈ Copies.reset n, s = State.reset)
    ∧ ((Copies.reset n).legal = true ↔ 1 ≤ n))
  ∧ (∀ (cs ds : Copies) (k : Nat), cs.legal = true → cs.stepAt k = .next ds →
      ds.legal = true ∧ ds.length = cs.length)

/-- `SEG.LEN` and `SEG.POS` fit their width (00_scope.md section 4): with a finite `MAX_LEN` both are
below `2 ^ LW`, so nothing wraps. -/
def Obligations.LengthsFitTheirWidth : Prop :=
  ∀ (s : State) (w : Nat), s.Inv → s.params.lw = some w →
    s.seg.len < 2 ^ w ∧ s.seg.pos < 2 ^ w
end

