-- ==== Sys2Proof/Laws/Encoding.lean ====
section
/-! SUPPORT. The lemmas of the packet format: what the field parser and the data slots read from the
words the encoder lays out, and that a packet is what its fields and slots say. All of them come down
to arithmetic on the value of a word. -/

namespace Sys2Proof

/-! ### Arithmetic of bit fields -/

/-- A packet is its two words. -/
theorem Packet.ext_words {p q : Packet} (h0 : p.word0 = q.word0) (h1 : p.word1 = q.word1) : p = q := by
  cases p; cases q; simp_all

/-- The value of a concatenation: the upper part shifted past the lower. -/
theorem toNat_append_add {m n : Nat} (x : BitVec m) (y : BitVec n) :
    (x ++ y).toNat = x.toNat * 2 ^ n + y.toNat := by
  rw [BitVec.toNat_append, Nat.shiftLeft_eq, ← Nat.shiftLeft_eq,
    Nat.shiftLeft_add_eq_or_of_lt y.isLt]

/-- The value of a slice (R7). -/
theorem toNat_slice {w : Nat} (x : BitVec w) (lo len : Nat) :
    (x.extractLsb' lo len).toNat = x.toNat / 2 ^ lo % 2 ^ len := by
  rw [BitVec.extractLsb'_toNat, Nat.shiftRight_eq_div_pow]

/-- The value of the upper half of `word0`. -/
theorem toNat_headOf (mt group status count : Nibble) :
    (headOf mt group status count).toNat
      = mt.toNat * 2 ^ 12 + group.toNat * 2 ^ 8 + status.toNat * 2 ^ 4 + count.toNat := by
  simp only [headOf, toNat_append_add]
  omega

/-- The value of the first word of a packet of message type 3. -/
theorem toNat_word0 (group status count : Nibble) (b0 b1 b2 b3 b4 b5 : Byte) :
    (sysExPacket group status count b0 b1 b2 b3 b4 b5).word0.toNat
      = 3 * 2 ^ 28 + group.toNat * 2 ^ 24 + status.toNat * 2 ^ 20 + count.toNat * 2 ^ 16
        + b0.toNat * 2 ^ 8 + b1.toNat := by
  have h : (Config.mtSysEx7).toNat = 3 := rfl
  simp only [sysExPacket, toNat_append_add, toNat_headOf, h]
  omega

/-- The value of the second word of a packet of message type 3. -/
theorem toNat_word1 (group status count : Nibble) (b0 b1 b2 b3 b4 b5 : Byte) :
    (sysExPacket group status count b0 b1 b2 b3 b4 b5).word1.toNat
      = b2.toNat * 2 ^ 24 + b3.toNat * 2 ^ 16 + b4.toNat * 2 ^ 8 + b5.toNat := by
  simp only [sysExPacket, toNat_append_add]
  omega

/-! ### Fields and slots of an encoded packet -/

/-- The field parser reads back the four fields of a packet of message type 3. -/
@[simp] theorem unpack_sysExPacket (group status count : Nibble) (b0 b1 b2 b3 b4 b5 : Byte) :
    unpack (sysExPacket group status count b0 b1 b2 b3 b4 b5).word0
      = { mt := Config.mtSysEx7, group := group, status := status, count := count } := by
  have h3 : (Config.mtSysEx7).toNat = 3 := rfl
  have hg := group.isLt; have hs := status.isLt; have hc := count.isLt
  have h0 := b0.isLt; have h1 := b1.isLt
  simp only [unpack, Fields.mk.injEq]
  refine ⟨?_, ?_, ?_, ?_⟩ <;>
    apply BitVec.eq_of_toNat_eq <;> rw [toNat_slice, toNat_word0] <;> omega

/-- The six data slots read back in order. -/
@[simp] theorem slots_sysExPacket (group status count : Nibble) (b0 b1 b2 b3 b4 b5 : Byte) :
    (sysExPacket group status count b0 b1 b2 b3 b4 b5).slots = [b0, b1, b2, b3, b4, b5] := by
  have hg := group.isLt; have hs := status.isLt; have hc := count.isLt
  have h0 := b0.isLt; have h1 := b1.isLt; have h2 := b2.isLt
  have h3 := b3.isLt; have h4 := b4.isLt; have h5 := b5.isLt
  simp only [Packet.slots, Packet.slot, List.cons.injEq, and_true]
  refine ⟨?_, ?_, ?_, ?_, ?_, ?_⟩ <;>
    apply BitVec.eq_of_toNat_eq <;> rw [toNat_slice] <;>
    first
      | rw [toNat_word0]; omega
      | rw [toNat_word1]; omega

/-- The message type of a foreign packet reads back. -/
theorem unpack_foreignPacket_mt (mt : Nibble) (rest : BitVec 28) (word1 : Word) :
    (unpack (foreignPacket mt rest word1).word0).mt = mt := by
  have hm := mt.isLt; have hr := rest.isLt
  apply BitVec.eq_of_toNat_eq
  simp only [unpack, foreignPacket, toNat_slice, toNat_append_add]
  omega

/-- The rest of a foreign packet's first word reads back. -/
theorem rest_foreignPacket (mt : Nibble) (rest : BitVec 28) (word1 : Word) :
    (foreignPacket mt rest word1).word0.extractLsb' 0 28 = rest := by
  have hm := mt.isLt; have hr := rest.isLt
  apply BitVec.eq_of_toNat_eq
  simp only [foreignPacket, toNat_slice, toNat_append_add]
  omega

/-! ### A packet from its fields and slots -/

/-- A packet of message type 3 is the encoding of its fields and slots. -/
theorem sysExPacket_of_fields (p : Packet) (h : (unpack p.word0).mt = Config.mtSysEx7) :
    sysExPacket (unpack p.word0).group (unpack p.word0).status (unpack p.word0).count
      (p.slot 0) (p.slot 1) (p.slot 2) (p.slot 3) (p.slot 4) (p.slot 5) = p := by
  have h3 : (Config.mtSysEx7).toNat = 3 := rfl
  have hm := congrArg BitVec.toNat h
  have w0 := p.word0.isLt; have w1 := p.word1.isLt
  simp only [unpack, toNat_slice, h3] at hm
  apply Packet.ext_words <;> apply BitVec.eq_of_toNat_eq
  · rw [toNat_word0]; simp only [unpack, Packet.slot, toNat_slice]; omega
  · rw [toNat_word1]; simp only [Packet.slot, toNat_slice]; omega

/-- A packet is the encoding of its message type and what follows it. -/
theorem foreignPacket_of_fields (p : Packet) :
    foreignPacket (unpack p.word0).mt (p.word0.extractLsb' 0 28) p.word1 = p := by
  have w0 := p.word0.isLt
  apply Packet.ext_words <;> apply BitVec.eq_of_toNat_eq
  · simp only [foreignPacket, unpack, toNat_slice, toNat_append_add]; omega
  · rfl

/-- The upper half of a packet of message type 3 is its four fields. -/
@[simp] theorem upperHalf_sysExPacket (group status count : Nibble) (b0 b1 b2 b3 b4 b5 : Byte) :
    upperHalf (sysExPacket group status count b0 b1 b2 b3 b4 b5).word0
      = headOf Config.mtSysEx7 group status count := by
  have h3 : (Config.mtSysEx7).toNat = 3 := rfl
  have hg := group.isLt; have hs := status.isLt; have hc := count.isLt
  have h0 := b0.isLt; have h1 := b1.isLt
  apply BitVec.eq_of_toNat_eq
  rw [upperHalf, toNat_slice, toNat_word0, toNat_headOf]
  omega

/-! ### The packet as one number -/

/-- The two words of a packet's number. -/
@[simp] theorem Packet.ofBits_toBits (p : Packet) : Packet.ofBits p.toBits = p := by
  have w0 := p.word0.isLt; have w1 := p.word1.isLt
  apply Packet.ext_words <;> apply BitVec.eq_of_toNat_eq <;>
    simp only [Packet.ofBits, Packet.toBits, toNat_slice, toNat_append_add] <;> omega

/-- A number laid out as a packet's: message type, group, status, count, the two bytes, `word1`. -/
def layout (mt group status count : Nibble) (low : BitVec 16) (word1 : Word) : BitVec 64 :=
  mt ++ group ++ status ++ count ++ low ++ word1

/-- A packet's number is laid out from its fields. -/
theorem toBits_layout (p : Packet) :
    p.toBits = layout (unpack p.word0).mt (unpack p.word0).group (unpack p.word0).status
      (unpack p.word0).count (p.word0.extractLsb' 0 16) p.word1 := by
  have w0 := p.word0.isLt; have w1 := p.word1.isLt
  apply BitVec.eq_of_toNat_eq
  simp only [layout, unpack, Packet.toBits, toNat_slice, toNat_append_add]
  omega

/-- A conjunction of two laid-out numbers is taken field by field. -/
theorem layout_and (mt group status count : Nibble) (low : BitVec 16) (word1 : Word)
    (mt' group' status' count' : Nibble) (low' : BitVec 16) (word1' : Word) :
    layout mt group status count low word1 &&& layout mt' group' status' count' low' word1'
      = layout (mt &&& mt') (group &&& group') (status &&& status') (count &&& count')
          (low &&& low') (word1 &&& word1') := by
  unfold layout
  change (_ : BitVec (4 + 4 + 4 + 4 + 16 + 32)) = _
  simp only [← BitVec.and_append]

/-- Two laid-out numbers are equal field by field. -/
theorem layout_inj (mt group status count : Nibble) (low : BitVec 16) (word1 : Word)
    (mt' group' status' count' : Nibble) (low' : BitVec 16) (word1' : Word) :
    layout mt group status count low word1 = layout mt' group' status' count' low' word1'
      ↔ mt = mt' ∧ group = group' ∧ status = status' ∧ count = count' ∧ low = low'
          ∧ word1 = word1' := by
  constructor
  · intro h
    have e := congrArg BitVec.toNat h
    have := group.isLt; have := status.isLt; have := count.isLt
    have := low.isLt; have := word1.isLt
    have := group'.isLt; have := status'.isLt; have := count'.isLt
    have := low'.isLt; have := word1'.isLt
    simp only [layout, toNat_append_add] at e
    refine ⟨?_, ?_, ?_, ?_, ?_, ?_⟩ <;> apply BitVec.eq_of_toNat_eq <;> omega
  · rintro ⟨rfl, rfl, rfl, rfl, rfl, rfl⟩; rfl

/-- A row that looks at the message type and the status only is a test of those two fields. -/
theorem holds_layout (ma sa mk sk : Nibble) (p : Packet) :
    TableRow.holds
        { mask := layout ma 0#4 sa 0#4 0#16 0#32, pattern := layout mk 0#4 sk 0#4 0#16 0#32 } p
      = ((unpack p.word0).mt &&& ma == mk && (unpack p.word0).status &&& sa == sk) := by
  rw [TableRow.holds, toBits_layout p, layout_and, Bool.eq_iff_iff]
  simp [layout_inj]

/-- The ten rows, as tests of the message type and the status. -/
theorem tableRows_layout :
    tableRows =
      [(0xF#4, 0xF#4, 3#4, 0#4), (0xF#4, 0xF#4, 3#4, 1#4), (0xF#4, 0xF#4, 3#4, 2#4),
        (0xF#4, 0xF#4, 3#4, 3#4), (0xF#4, 0xC#4, 3#4, 4#4), (0xF#4, 0x8#4, 3#4, 8#4),
        (0xE#4, 0#4, 0#4, 0#4), (0xF#4, 0#4, 2#4, 0#4), (0xC#4, 0#4, 4#4, 0#4),
        (0x8#4, 0#4, 8#4, 0#4)].map fun (ma, sa, mk, sk) =>
          { mask := layout ma 0#4 sa 0#4 0#16 0#32, pattern := layout mk 0#4 sk 0#4 0#16 0#32 } := by
  decide

end Sys2Proof
end

