-- ==== Sys2Proof/Laws/Fmt.lean ====
section
/-! SUPPORT. The lemmas of FMT's functions: what a packed packet holds, and what a subsequence, a strip
and a chunk are in lists. -/

namespace Sys2Proof.Machine

/-! ### Marshalling -/

/-- A count of at most 6 is not changed by its 4-bit field. -/
theorem toNat_count {n : Nat} (h : n ≤ 6) : (BitVec.ofNat 4 n).toNat = n := by
  rw [BitVec.toNat_ofNat]; omega

/-- A chunk padded with zero to six slots (R52, R70). -/
theorem padded_slots (chunk : List Byte) (h : chunk.length ≤ 6) :
    [paddedByte chunk 0, paddedByte chunk 1, paddedByte chunk 2, paddedByte chunk 3,
        paddedByte chunk 4, paddedByte chunk 5]
      = chunk ++ List.replicate (6 - chunk.length) 0#8 := by
  match chunk, h with
  | [], _ => rfl
  | [_], _ => rfl
  | [_, _], _ => rfl
  | [_, _, _], _ => rfl
  | [_, _, _, _], _ => rfl
  | [_, _, _, _, _], _ => rfl
  | [_, _, _, _, _, _], _ => rfl
  | _ :: _ :: _ :: _ :: _ :: _ :: _ :: _, h => simp only [List.length_cons] at h; omega

/-- The slots of a packed chunk are the chunk and zeros. -/
theorem slots_pack (group status : Nibble) (chunk : List Byte) (h : chunk.length ≤ 6) :
    (pack group status chunk).slots = chunk ++ List.replicate (6 - chunk.length) 0#8 := by
  rw [pack, slots_sysExPacket, padded_slots chunk h]

/-- The fields of a packed chunk. -/
@[simp] theorem unpack_pack (group status : Nibble) (chunk : List Byte) :
    unpack (pack group status chunk).word0
      = { mt := Config.mtSysEx7, group := group, status := status,
          count := BitVec.ofNat 4 chunk.length } := by
  rw [pack, unpack_sysExPacket]

/-- There are six slots. -/
@[simp] theorem slots_length (p : Packet) : p.slots.length = 6 := rfl

/-- A payload is as long as its count says. -/
theorem payloadOf_length (p : Packet) {n : Nat} (h : n ≤ 6) : (payloadOf p n).length = n := by
  simp [payloadOf, h]

/-- A payload is as long as its count says, also before it is laid into words. -/
theorem payloadOfSlots_length (count : Nibble) (b0 b1 b2 b3 b4 b5 : Byte) (h : count.toNat ≤ 6) :
    (payloadOfSlots count b0 b1 b2 b3 b4 b5).length = count.toNat := by
  simp [payloadOfSlots, h]

/-- The payload of an encoded packet is that of its slots. -/
theorem payloadOf_sysExPacket (group status count : Nibble) (b0 b1 b2 b3 b4 b5 : Byte) :
    payloadOf (sysExPacket group status count b0 b1 b2 b3 b4 b5) count.toNat
      = payloadOfSlots count b0 b1 b2 b3 b4 b5 := by
  rw [payloadOf, slots_sysExPacket, payloadOfSlots]

/-! ### Subsequences -/

/-- The length of a subsequence inside its list. -/
theorem subseq_length {α : Type} (s : List α) {i j : Nat} (hj : j ≤ s.length) :
    (subseq s i j).length = j - i := by
  simp only [subseq, List.length_take, List.length_drop]; omega

/-- Two neighbouring subsequences join up. -/
theorem subseq_append {α : Type} (s : List α) {i j k : Nat} (hij : i ≤ j) (hjk : j ≤ k) :
    subseq s i j ++ subseq s j k = subseq s i k := by
  have h1 : k - i = (j - i) + (k - j) := by omega
  have h2 : s.drop j = (s.drop i).drop (j - i) := by rw [List.drop_drop]; congr 1; omega
  simp only [subseq, h1, List.take_add, h2]

/-- The whole list as a subsequence. -/
theorem subseq_all {α : Type} (s : List α) : subseq s 0 s.length = s := by simp [subseq]

/-! ### The status rule -/

/-- The count of a packet is at most 6. -/
theorem countOf_le (remaining : Nat) : countOf remaining ≤ 6 := Nat.min_le_right _ _

/-- The count of a packet is at most what is left. -/
theorem countOf_le_left (remaining : Nat) : countOf remaining ≤ remaining := Nat.min_le_left _ _

/-- A packet takes at least one byte where one is left. -/
theorem countOf_pos {remaining : Nat} (h : 0 < remaining) : 0 < countOf remaining := by
  simp only [countOf, Config.chunk]; omega

/-- The status is one of the four of R50. -/
theorem statusOf_le (isFirst : Bool) (remaining : Nat) : (statusOf isFirst remaining).toNat ≤ 3 := by
  unfold statusOf; split <;> decide

/-- A `start` or a `continue` is formed only with more than 6 bytes left (R68). -/
theorem statusOf_full {isFirst : Bool} {remaining : Nat}
    (h : statusOf isFirst remaining = 1#4 ∨ statusOf isFirst remaining = 2#4) : 6 < remaining := by
  by_contra hr
  have hr' : decide (remaining ≤ Config.chunk) = true := decide_eq_true (by simpa [Config.chunk] using hr)
  cases isFirst <;> simp [statusOf, hr'] at h

end Sys2Proof.Machine
end

