-- ==== Sys2Proof/Laws/State.lean ====
section
/-! SUPPORT. One lemma per field per update of the state, each true by unfolding, so that no later proof
unfolds a record update. -/

namespace Sys2Proof.Machine

/-! ### Setters -/

@[simp] theorem State.setSeg_seg (s : State) (g : SegState) : (s.setSeg g).seg = g := rfl
@[simp] theorem State.setSeg_dec (s : State) (g : SegState) : (s.setSeg g).dec = s.dec := rfl
@[simp] theorem State.setSeg_port (s : State) (g : SegState) : (s.setSeg g).port = s.port := rfl
@[simp] theorem State.setSeg_params (s : State) (g : SegState) : (s.setSeg g).params = s.params := rfl

@[simp] theorem State.setDec_seg (s : State) (d : DecState) : (s.setDec d).seg = s.seg := rfl
@[simp] theorem State.setDec_dec (s : State) (d : DecState) : (s.setDec d).dec = d := rfl
@[simp] theorem State.setDec_port (s : State) (d : DecState) : (s.setDec d).port = s.port := rfl
@[simp] theorem State.setDec_params (s : State) (d : DecState) : (s.setDec d).params = s.params := rfl

@[simp] theorem State.setPort_seg (s : State) (p : PortState) : (s.setPort p).seg = s.seg := rfl
@[simp] theorem State.setPort_dec (s : State) (p : PortState) : (s.setPort p).dec = s.dec := rfl
@[simp] theorem State.setPort_port (s : State) (p : PortState) : (s.setPort p).port = p := rfl
@[simp] theorem State.setPort_params (s : State) (p : PortState) :
    (s.setPort p).params = s.params := rfl

/-- Two states with the same four parts are the same state. -/
theorem State.ext_parts {s t : State} (hs : s.seg = t.seg) (hd : s.dec = t.dec)
    (hp : s.port = t.port) (hq : s.params = t.params) : s = t := by
  cases s; cases t; simp_all

/-! ### Replies -/

@[simp] theorem State.answer_seg (s : State) (r : Reply) : (s.answer r).seg = s.seg := rfl
@[simp] theorem State.answer_dec (s : State) (r : Reply) : (s.answer r).dec = s.dec := rfl
@[simp] theorem State.answer_params (s : State) (r : Reply) : (s.answer r).params = s.params := rfl
@[simp] theorem State.answer_inbox (s : State) (r : Reply) :
    (s.answer r).port.inbox = s.port.inbox := rfl
@[simp] theorem State.answer_turns (s : State) (r : Reply) :
    (s.answer r).port.turns = s.port.turns := rfl
@[simp] theorem State.answer_replies (s : State) (r : Reply) :
    (s.answer r).port.replies = s.port.replies ++ [r] := rfl
@[simp] theorem State.answer_freeReads (s : State) (r : Reply) :
    (s.answer r).port.freeReads = s.port.freeReads := rfl

/-! ### Parking, free reads, reset -/

@[simp] theorem State.park_seg (s : State) (c : HostCmd) : (s.park c).seg = s.seg := rfl
@[simp] theorem State.park_dec (s : State) (c : HostCmd) : (s.park c).dec = s.dec := rfl
@[simp] theorem State.park_params (s : State) (c : HostCmd) : (s.park c).params = s.params := rfl
@[simp] theorem State.park_inbox (s : State) (c : HostCmd) :
    (s.park c).port.inbox = c :: s.port.inbox := rfl

@[simp] theorem State.spendFree_seg (s : State) : s.spendFree.seg = s.seg := rfl
@[simp] theorem State.spendFree_dec (s : State) : s.spendFree.dec = s.dec := rfl
@[simp] theorem State.spendFree_params (s : State) : s.spendFree.params = s.params := rfl
@[simp] theorem State.spendFree_inbox (s : State) : s.spendFree.port.inbox = s.port.inbox := rfl
@[simp] theorem State.spendFree_replies (s : State) : s.spendFree.port.replies = s.port.replies := rfl

@[simp] theorem State.coreReset_seg (s : State) : s.coreReset.seg = SegState.reset := rfl
@[simp] theorem State.coreReset_dec (s : State) : s.coreReset.dec = DecState.reset := rfl
@[simp] theorem State.coreReset_port (s : State) : s.coreReset.port = s.port := rfl
@[simp] theorem State.coreReset_params (s : State) : s.coreReset.params = s.params := rfl

/-! ### Updates of SEG -/

@[simp] theorem State.segSetGroup_seg (s : State) (group : Nibble) :
    (s.segSetGroup group).seg = { s.seg with group := group } := rfl
@[simp] theorem State.segSetGroup_dec (s : State) (group : Nibble) :
    (s.segSetGroup group).dec = s.dec := rfl
@[simp] theorem State.segSetGroup_port (s : State) (group : Nibble) :
    (s.segSetGroup group).port = s.port := rfl
@[simp] theorem State.segSetGroup_params (s : State) (group : Nibble) :
    (s.segSetGroup group).params = s.params := rfl

@[simp] theorem SegState.push_txq (g : SegState) (p : Packet) : (g.push p).txq = g.txq ++ [p] := rfl
@[simp] theorem SegState.raise_txq (g : SegState) (e : ErrKind) : (g.raise e).txq = g.txq := rfl
@[simp] theorem SegState.raise_mode (g : SegState) (e : ErrKind) : (g.raise e).mode = g.mode := rfl
@[simp] theorem SegState.raise_done (g : SegState) (e : ErrKind) : (g.raise e).done = true := rfl
@[simp] theorem SegState.raise_err (g : SegState) (e : ErrKind) : (g.raise e).err = some e := rfl

/-! ### Updates of DEC -/

@[simp] theorem DecState.memWrite_acc (d : DecState) (v : List Byte) :
    (d.memWrite v).acc = d.acc ++ v := rfl
@[simp] theorem DecState.memWrite_bounds (d : DecState) (v : List Byte) :
    (d.memWrite v).bounds = d.bounds := rfl
@[simp] theorem DecState.memWrite_inrun (d : DecState) (v : List Byte) :
    (d.memWrite v).inrun = d.inrun := rfl
@[simp] theorem DecState.memWrite_err (d : DecState) (v : List Byte) : (d.memWrite v).err = d.err := rfl
@[simp] theorem DecState.memWrite_mode (d : DecState) (v : List Byte) :
    (d.memWrite v).mode = d.mode := rfl
@[simp] theorem DecState.memWrite_done (d : DecState) (v : List Byte) :
    (d.memWrite v).done = d.done := rfl
@[simp] theorem DecState.memWrite_fields (d : DecState) (v : List Byte) :
    (d.memWrite v).fields = d.fields := rfl
@[simp] theorem DecState.memWrite_npkt (d : DecState) (v : List Byte) :
    (d.memWrite v).npkt = d.npkt := rfl

@[simp] theorem DecState.closeAt_acc (d : DecState) (n : Nat) : (d.closeAt n).acc = d.acc := rfl
@[simp] theorem DecState.closeAt_bounds (d : DecState) (n : Nat) :
    (d.closeAt n).bounds = d.bounds ++ [n] := rfl
@[simp] theorem DecState.closeAt_inrun (d : DecState) (n : Nat) : (d.closeAt n).inrun = d.inrun := rfl
@[simp] theorem DecState.closeAt_err (d : DecState) (n : Nat) : (d.closeAt n).err = d.err := rfl
@[simp] theorem DecState.closeAt_mode (d : DecState) (n : Nat) : (d.closeAt n).mode = d.mode := rfl
@[simp] theorem DecState.closeAt_done (d : DecState) (n : Nat) : (d.closeAt n).done = d.done := rfl
@[simp] theorem DecState.closeAt_fields (d : DecState) (n : Nat) :
    (d.closeAt n).fields = d.fields := rfl
@[simp] theorem DecState.closeAt_npkt (d : DecState) (n : Nat) : (d.closeAt n).npkt = d.npkt := rfl

@[simp] theorem DecState.raise_acc (d : DecState) (e : ErrKind) : (d.raise e).acc = [] := rfl
@[simp] theorem DecState.raise_bounds (d : DecState) (e : ErrKind) : (d.raise e).bounds = [] := rfl
@[simp] theorem DecState.raise_inrun (d : DecState) (e : ErrKind) : (d.raise e).inrun = false := rfl
@[simp] theorem DecState.raise_err (d : DecState) (e : ErrKind) : (d.raise e).err = some e := rfl
@[simp] theorem DecState.raise_mode (d : DecState) (e : ErrKind) : (d.raise e).mode = d.mode := rfl
@[simp] theorem DecState.raise_done (d : DecState) (e : ErrKind) : (d.raise e).done = d.done := rfl
@[simp] theorem DecState.raise_fields (d : DecState) (e : ErrKind) :
    (d.raise e).fields = d.fields := rfl
@[simp] theorem DecState.raise_npkt (d : DecState) (e : ErrKind) : (d.raise e).npkt = d.npkt := rfl

/-! ### Taking a command -/

@[simp] theorem State.spendTurn_seg (s : State) : s.spendTurn.seg = s.seg := by
  unfold State.spendTurn; split <;> rfl
@[simp] theorem State.spendTurn_dec (s : State) : s.spendTurn.dec = s.dec := by
  unfold State.spendTurn; split <;> rfl
@[simp] theorem State.spendTurn_params (s : State) : s.spendTurn.params = s.params := by
  unfold State.spendTurn; split <;> rfl
@[simp] theorem State.spendTurn_inbox (s : State) : s.spendTurn.port.inbox = s.port.inbox := by
  unfold State.spendTurn; split <;> rfl
@[simp] theorem State.spendTurn_replies (s : State) : s.spendTurn.port.replies = s.port.replies := by
  unfold State.spendTurn; split <;> rfl
@[simp] theorem State.spendTurn_freeReads (s : State) :
    s.spendTurn.port.freeReads = s.port.freeReads := by
  unfold State.spendTurn; split <;> rfl

@[simp] theorem State.fetched_seg (s : State) (rest : List HostCmd) : (s.fetched rest).seg = s.seg := by
  simp [State.fetched]
@[simp] theorem State.fetched_dec (s : State) (rest : List HostCmd) : (s.fetched rest).dec = s.dec := by
  simp [State.fetched]
@[simp] theorem State.fetched_params (s : State) (rest : List HostCmd) :
    (s.fetched rest).params = s.params := by
  simp [State.fetched]
@[simp] theorem State.fetched_inbox (s : State) (rest : List HostCmd) :
    (s.fetched rest).port.inbox = rest := rfl
@[simp] theorem State.fetched_replies (s : State) (rest : List HostCmd) :
    (s.fetched rest).port.replies = s.port.replies := by
  simp [State.fetched]

end Sys2Proof.Machine
end

