-- ==== Sys2Proof/Laws/Dec.lean ====
section
/-! SUPPORT. What DEC's operations can do, said once each: raising an error, the frame of `DEC.PKT`, the
meaning of a packet by its row, and the end of a call. -/

namespace Sys2Proof.Machine

/-! ### Raising an error -/

@[simp] theorem raise_malformedRun (s : State) :
    s.raise .malformedRun = s.setDec (s.dec.raise .malformedRun) := rfl
@[simp] theorem raise_invalidByteCount (s : State) :
    s.raise .invalidByteCount = s.setDec (s.dec.raise .invalidByteCount) := rfl
@[simp] theorem raise_unsupportedMessageType (s : State) :
    s.raise .unsupportedMessageType = s.setDec (s.dec.raise .unsupportedMessageType) := rfl
@[simp] theorem raise_emptyPayload (s : State) :
    s.raise .emptyPayload = s.setSeg (s.seg.raise .emptyPayload) := rfl

/-! ### The frame of `DEC.PKT` -/

/-- With no call open a packet is refused (R115). -/
theorem takePacket_idle {s : State} (h : s.dec.mode = .idle) (head : BitVec 16)
    (body : State → State) : s.takePacket head body = .refused .decPktNotOpen := by
  simp only [State.takePacket, h]

/-- A full call refuses a packet (R115). -/
theorem takePacket_full {s : State} (h : s.dec.mode = .opened)
    (hf : Params.reached s.params.maxPkts s.dec.npkt = true) (head : BitVec 16)
    (body : State → State) : s.takePacket head body = .refused .decCallFull := by
  simp only [State.takePacket, h, hf, if_true]

/-- A failed call counts a packet and ignores it (R103 (d)). -/
theorem takePacket_failed {s : State} (h : s.dec.mode = .opened)
    (hf : Params.reached s.params.maxPkts s.dec.npkt = false) (he : s.dec.err ≠ none)
    (head : BitVec 16) (body : State → State) :
    s.takePacket head body = .next (s.setDec s.dec.counted) := by
  have he' : s.dec.err.isSome = true := Option.isSome_iff_ne_none.mpr he
  simp only [State.takePacket, h, hf, he', if_true, Bool.false_eq_true, if_false]

/-- A packet that is looked at goes to its body, counted and recorded (R102). -/
theorem takePacket_examined {s : State} (h : s.examines) (head : BitVec 16) (body : State → State) :
    s.takePacket head body = .next (body (s.setDec (s.dec.counted.recorded head))) := by
  obtain ⟨hm, hf, he⟩ := h
  simp only [State.takePacket, hm, hf, he, Option.isSome_none, Bool.false_eq_true, if_false]

/-- Everything the frame of `DEC.PKT` can do. -/
theorem takePacket_cases (s : State) (head : BitVec 16) (body : State → State) :
    (∃ r, s.takePacket head body = .refused r)
    ∨ (s.dec.mode = .opened ∧ Params.reached s.params.maxPkts s.dec.npkt = false ∧ s.dec.err ≠ none
        ∧ s.takePacket head body = .next (s.setDec s.dec.counted))
    ∨ (s.examines
        ∧ s.takePacket head body = .next (body (s.setDec (s.dec.counted.recorded head)))) := by
  cases hm : s.dec.mode with
  | idle => exact .inl ⟨_, takePacket_idle hm head body⟩
  | opened =>
    cases hf : Params.reached s.params.maxPkts s.dec.npkt with
    | true => exact .inl ⟨_, takePacket_full hm hf head body⟩
    | false =>
      by_cases he : s.dec.err = none
      · exact .inr (.inr ⟨⟨hm, hf, he⟩, takePacket_examined ⟨hm, hf, he⟩ head body⟩)
      · exact .inr (.inl ⟨rfl, rfl, he, takePacket_failed hm hf he head body⟩)

/-! ### The byte-count test -/

/-- A count of 7 to 15 fails the call (R110). -/
theorem checkCount_bad {count : Nibble} (h : 6 < count.toNat) (s : State) (body : State → State) :
    s.checkCount count body = s.raise .invalidByteCount := by
  simp only [State.checkCount, Config.chunk, gt_iff_lt, h, if_true]

/-- A legal count goes on to the status (R103 (a)). -/
theorem checkCount_good {count : Nibble} (h : count.toNat ≤ 6) (s : State) (body : State → State) :
    s.checkCount count body = body s := by
  have h' : ¬ 6 < count.toNat := by omega
  simp only [State.checkCount, Config.chunk, gt_iff_lt, h', if_false]

/-! ### A packet by its row -/

/-- The upper half a packet records, read off its fields. -/
def headOfInstr : Instr → BitVec 16
  | .sx7One group count .. => headOf Config.mtSysEx7 group 0#4 count
  | .sx7Start group count .. => headOf Config.mtSysEx7 group 1#4 count
  | .sx7Cont group count .. => headOf Config.mtSysEx7 group 2#4 count
  | .sx7End group count .. => headOf Config.mtSysEx7 group 3#4 count
  | .sx7RsvdSt4to7 status group count .. => headOf Config.mtSysEx7 group status count
  | .sx7RsvdSt8to15 status group count .. => headOf Config.mtSysEx7 group status count
  | .notSx7Mt0to1 mt rest _ => foreignHead mt rest
  | .notSx7Mt2 mt rest _ => foreignHead mt rest
  | .notSx7Mt4to7 mt rest _ => foreignHead mt rest
  | .notSx7Mt8to15 mt rest _ => foreignHead mt rest

/-- What a packet does once it is counted and recorded, read off its fields. -/
def bodyOfInstr : Instr → State → State
  | .sx7One _ count b0 b1 b2 b3 b4 b5, t =>
    t.checkCount count fun u => u.acceptOne count (payloadOfSlots count b0 b1 b2 b3 b4 b5)
  | .sx7Start _ count b0 b1 b2 b3 b4 b5, t =>
    t.checkCount count fun u => u.acceptStart (payloadOfSlots count b0 b1 b2 b3 b4 b5)
  | .sx7Cont _ count b0 b1 b2 b3 b4 b5, t =>
    t.checkCount count fun u => u.acceptCont (payloadOfSlots count b0 b1 b2 b3 b4 b5)
  | .sx7End _ count b0 b1 b2 b3 b4 b5, t =>
    t.checkCount count fun u => u.acceptEnd count (payloadOfSlots count b0 b1 b2 b3 b4 b5)
  | .sx7RsvdSt4to7 _ _ count .., t => t.checkCount count fun u => u.raise .malformedRun
  | .sx7RsvdSt8to15 _ _ count .., t => t.checkCount count fun u => u.raise .malformedRun
  | .notSx7Mt0to1 .., t => t.raise .unsupportedMessageType
  | .notSx7Mt2 .., t => t.raise .unsupportedMessageType
  | .notSx7Mt4to7 .., t => t.raise .unsupportedMessageType
  | .notSx7Mt8to15 .., t => t.raise .unsupportedMessageType

/-- Every packet passes through the one frame of R102. -/
theorem exec_eq_takePacket (i : Instr) (s : State) :
    exec i s = s.takePacket (headOfInstr i) (bodyOfInstr i) := by
  cases i <;> rfl

/-- The upper half a packet records is that of its first word (R24). -/
theorem headOfInstr_eq (i : Instr) : headOfInstr i = upperHalf (encode i).word0 := by
  have foreign : ∀ (mt : Nibble) (rest : BitVec 28) (word1 : Word),
      foreignHead mt rest = upperHalf (foreignPacket mt rest word1).word0 := by
    intro mt rest word1
    have hm := mt.isLt; have hr := rest.isLt
    apply BitVec.eq_of_toNat_eq
    simp only [foreignHead, upperHalf, foreignPacket, toNat_slice, toNat_append_add]
    omega
  cases i with
  | notSx7Mt0to1 mt rest word1 => exact foreign mt rest word1
  | notSx7Mt2 mt rest word1 => exact foreign mt rest word1
  | notSx7Mt4to7 mt rest word1 => exact foreign mt rest word1
  | notSx7Mt8to15 mt rest word1 => exact foreign mt rest word1
  | _ => simp only [headOfInstr, encode, upperHalf_sysExPacket]

/-- What a packet's body can leave in DEC: the call fails, or the valid bytes of the packet are appended
and, at the end of a message, its boundary. -/
inductive BodyEffect (d e : DecState) : Prop where
  /-- The call fails (R104 to R110). -/
  | failed (err : ErrKind) (h : err ≠ .emptyPayload) (eq : e = d.raise err)
  /-- A whole message (R105). -/
  | one (bytes : List Byte) (size : bytes.length ≤ 6) (closed : d.inrun = false)
      (eq : e = (d.memWrite bytes).closeAt (d.acc.length + bytes.length))
  /-- The first packet of a run (R106). -/
  | start (bytes : List Byte) (size : bytes.length ≤ 6) (closed : d.inrun = false)
      (eq : e = { d.memWrite bytes with inrun := true })
  /-- A middle packet (R107). -/
  | cont (bytes : List Byte) (size : bytes.length ≤ 6) (opened : d.inrun = true)
      (eq : e = d.memWrite bytes)
  /-- The last packet of a run (R108). -/
  | last (bytes : List Byte) (size : bytes.length ≤ 6) (opened : d.inrun = true)
      (eq : e = { (d.memWrite bytes).closeAt (d.acc.length + bytes.length) with inrun := false })

/-- Everything a packet's body can do: it changes DEC only, in one of five ways. -/
theorem bodyOfInstr_effect (i : Instr) (t : State) :
    ∃ e, bodyOfInstr i t = t.setDec e ∧ BodyEffect t.dec e := by
  have failed : ∀ err, err ≠ .emptyPayload →
      ∃ e, t.raise err = t.setDec e ∧ BodyEffect t.dec e := by
    intro err h
    refine ⟨t.dec.raise err, ?_, .failed err h rfl⟩
    cases err <;> first | rfl | exact absurd rfl h
  have counted : ∀ (count : Nibble) (body : State → State),
      (count.toNat ≤ 6 → ∃ e, body t = t.setDec e ∧ BodyEffect t.dec e) →
      ∃ e, t.checkCount count body = t.setDec e ∧ BodyEffect t.dec e := by
    intro count body h
    by_cases hc : count.toNat ≤ 6
    · rw [checkCount_good hc]; exact h hc
    · rw [checkCount_bad (by omega)]; exact failed .invalidByteCount (by decide)
  cases i with
  | sx7One group count b0 b1 b2 b3 b4 b5 =>
    simp only [bodyOfInstr]
    refine counted count _ fun hc => ?_
    have hl := payloadOfSlots_length count b0 b1 b2 b3 b4 b5 hc
    cases hr : t.dec.inrun
    · exact ⟨_, by simp only [State.acceptOne, hr, Bool.false_eq_true, if_false]; rfl,
        .one (payloadOfSlots count b0 b1 b2 b3 b4 b5) (by omega) hr (by rw [hl])⟩
    · simp only [State.acceptOne, hr, if_true]; exact failed .malformedRun (by decide)
  | sx7Start group count b0 b1 b2 b3 b4 b5 =>
    simp only [bodyOfInstr]
    refine counted count _ fun hc => ?_
    have hl := payloadOfSlots_length count b0 b1 b2 b3 b4 b5 hc
    cases hr : t.dec.inrun
    · exact ⟨_, by simp only [State.acceptStart, hr, Bool.false_eq_true, if_false]; rfl,
        .start _ (by omega) hr rfl⟩
    · simp only [State.acceptStart, hr, if_true]; exact failed .malformedRun (by decide)
  | sx7Cont group count b0 b1 b2 b3 b4 b5 =>
    simp only [bodyOfInstr]
    refine counted count _ fun hc => ?_
    have hl := payloadOfSlots_length count b0 b1 b2 b3 b4 b5 hc
    cases hr : t.dec.inrun
    · simp only [State.acceptCont, hr, Bool.false_eq_true, if_false]; exact failed .malformedRun (by decide)
    · exact ⟨_, by simp only [State.acceptCont, hr, if_true]; rfl, .cont _ (by omega) hr rfl⟩
  | sx7End group count b0 b1 b2 b3 b4 b5 =>
    simp only [bodyOfInstr]
    refine counted count _ fun hc => ?_
    have hl := payloadOfSlots_length count b0 b1 b2 b3 b4 b5 hc
    cases hr : t.dec.inrun
    · simp only [State.acceptEnd, hr, Bool.false_eq_true, if_false]; exact failed .malformedRun (by decide)
    · exact ⟨_, by simp only [State.acceptEnd, hr, if_true]; rfl,
        .last (payloadOfSlots count b0 b1 b2 b3 b4 b5) (by omega) hr (by rw [hl])⟩
  | sx7RsvdSt4to7 status group count =>
    simp only [bodyOfInstr]
    exact counted count _ fun _ => failed .malformedRun (by decide)
  | sx7RsvdSt8to15 status group count =>
    simp only [bodyOfInstr]
    exact counted count _ fun _ => failed .malformedRun (by decide)
  | notSx7Mt0to1 => exact failed .unsupportedMessageType (by decide)
  | notSx7Mt2 => exact failed .unsupportedMessageType (by decide)
  | notSx7Mt4to7 => exact failed .unsupportedMessageType (by decide)
  | notSx7Mt8to15 => exact failed .unsupportedMessageType (by decide)

/-- Everything a packet can do: it is refused, counted, or recorded and taken. -/
theorem exec_cases (i : Instr) (s : State) :
    (∃ r, exec i s = .refused r)
    ∨ (s.dec.mode = .opened ∧ Params.reached s.params.maxPkts s.dec.npkt = false ∧ s.dec.err ≠ none
        ∧ exec i s = .next (s.setDec s.dec.counted))
    ∨ (s.examines ∧ ∃ e, exec i s = .next (s.setDec e)
        ∧ BodyEffect (s.dec.counted.recorded (headOfInstr i)) e) := by
  rw [exec_eq_takePacket]
  rcases takePacket_cases s (headOfInstr i) (bodyOfInstr i) with h | h | ⟨hx, h⟩
  · exact .inl h
  · exact .inr (.inl h)
  · obtain ⟨e, he, heff⟩ :=
      bodyOfInstr_effect i (s.setDec (s.dec.counted.recorded (headOfInstr i)))
    refine .inr (.inr ⟨hx, e, ?_, heff⟩)
    rw [h, he]; rfl

/-! ### Opening and closing a call -/

/-- Everything `DEC.BEGIN` can do (R101, R115). -/
theorem decBegin_cases (s : State) :
    (s.dec.mode = .opened ∧ s.decBegin = .refused .decAlreadyOpen)
    ∨ (s.dec.mode = .idle ∧ s.decBegin = .next (s.setDec DecState.fresh)) := by
  cases h : s.dec.mode <;> simp [State.decBegin, h]

/-- DEC after `DEC.END`: an open run of a good call is an error first (R112). -/
def DecState.closed (d : DecState) : DecState :=
  if d.err.isNone && d.inrun then (d.raise .malformedRun).ended else d.ended

/-- Everything `DEC.END` can do (R112, R115). -/
theorem decEnd_cases (s : State) :
    (s.dec.mode = .idle ∧ s.decEnd = .refused .decEndNotOpen)
    ∨ (s.dec.mode = .opened
        ∧ s.decEnd = .next ((s.setDec s.dec.closed).answer s.dec.closed.outcome)) := by
  cases h : s.dec.mode with
  | idle => exact .inl ⟨rfl, by simp only [State.decEnd, h]⟩
  | opened =>
    refine .inr ⟨rfl, ?_⟩
    simp only [State.decEnd, h, State.closeRun, DecState.closed]
    cases hc : s.dec.err.isNone && s.dec.inrun <;> rfl

end Sys2Proof.Machine
end

