-- ==== Sys2Proof/Laws/Seg.lean ====
section
/-! SUPPORT. What SEG's operations can do, said once each: the strip, the emit body, the emit step, the
submission and the pop. -/

namespace Sys2Proof.Machine

/-! ### The strip -/

/-- At most two bytes are stripped, and none of a short message (R66). -/
theorem strip_length_le (bytes : List Byte) :
    (strip bytes).length ≤ bytes.length ∧ bytes.length - 2 ≤ (strip bytes).length := by
  by_cases h : bytes.length > 3
  · simp only [strip, Config.stripGate, h, if_true]
    rw [subseq_length _ (by omega)]
    split <;> split <;> omega
  · simp only [strip, Config.stripGate, h, if_false]; omega

/-- A short message is not stripped (R66). -/
theorem strip_short {bytes : List Byte} (h : bytes.length ≤ 3) : strip bytes = bytes := by
  have h' : ¬ bytes.length > 3 := by omega
  simp only [strip, Config.stripGate, h', if_false]

/-! ### Packing a chunk -/

/-- What a packed chunk decodes to, for each status SEG uses (R53). -/
theorem decode_pack (group : Nibble) (chunk : List Byte) :
    let n := BitVec.ofNat 4 chunk.length
    let b := paddedByte chunk
    decode (pack group 0#4 chunk) = .sx7One group n (b 0) (b 1) (b 2) (b 3) (b 4) (b 5)
    ∧ decode (pack group 1#4 chunk) = .sx7Start group n (b 0) (b 1) (b 2) (b 3) (b 4) (b 5)
    ∧ decode (pack group 2#4 chunk) = .sx7Cont group n (b 0) (b 1) (b 2) (b 3) (b 4) (b 5)
    ∧ decode (pack group 3#4 chunk) = .sx7End group n (b 0) (b 1) (b 2) (b 3) (b 4) (b 5) := by
  have slots : ∀ status, (pack group status chunk).slots = _ := fun status =>
    slots_sysExPacket group status (BitVec.ofNat 4 chunk.length) _ _ _ _ _ _
  simp only [Packet.slots, List.cons.injEq, and_true] at slots
  refine ⟨?_, ?_, ?_, ?_⟩ <;> simp [decode, slots]

/-- The payload of a packed chunk is the chunk. -/
theorem payloadOf_pack (group status : Nibble) (chunk : List Byte) {n : Nat} (hn : chunk.length = n)
    (h : n ≤ 6) : payloadOf (pack group status chunk) n = chunk := by
  subst hn
  rw [payloadOf, slots_pack group status chunk h, List.take_left]

/-- A packed chunk of 1 to 6 bytes with a status SEG uses has the form of R59, where a `start` or a
`continue` is full. -/
theorem emittedForm_pack (group status : Nibble) (chunk : List Byte) (h1 : 1 ≤ chunk.length)
    (h6 : chunk.length ≤ 6) (hs : status.toNat ≤ 3)
    (hf : status = 1#4 ∨ status = 2#4 → chunk.length = 6) :
    emittedForm (pack group status chunk) = true := by
  have hd : ((pack group status chunk).slots.drop chunk.length).all (· == 0#8) = true := by
    rw [slots_pack group status chunk h6, List.drop_left]
    simp
  have hf' : (!(status == 1#4 || status == 2#4) || chunk.length == 6) = true := by
    by_cases h : status = 1#4 ∨ status = 2#4
    · simp [hf h]
    · simp [not_or.mp h]
  simp only [emittedForm, unpack_pack, toNat_count h6, hd, hf', Bool.and_true, Bool.and_eq_true,
    decide_eq_true_eq, beq_self_eq_true, true_and]
  exact ⟨⟨hs, h1⟩, h6⟩

/-! ### The emit step -/

/-- The fields of SEG after an emit (R93). -/
theorem emitted_fields (g : SegState) (status : Nibble) (c : Nat) (chunk : List Byte) :
    let t := g.emitted status c chunk
    t.group = g.group ∧ t.grpL = g.grpL ∧ t.buf = g.buf ∧ t.len = g.len ∧ t.pos = g.pos + c
    ∧ t.first = false ∧ t.txq = g.txq ++ [pack g.grpL status chunk]
    ∧ (g.pos + c = g.len → t.mode = .idle ∧ t.done = true ∧ t.err = none)
    ∧ (g.pos + c ≠ g.len → t.mode = g.mode ∧ t.done = g.done ∧ t.err = g.err) := by
  by_cases h : g.pos + c = g.len <;> simp [SegState.emitted, h, SegState.finished, SegState.push]

/-- `SEG.EMIT` is the emit body with the status of R68 (R87). -/
theorem segEmit_eq_emitBody (s : State) (h : s.seg.remaining ≠ 0) :
    s.segEmit = s.emitBody (statusOf s.seg.first s.seg.remaining) := by
  simp only [State.segEmit, h, if_false, statusOf, State.emitOne, State.emitStart, State.emitCont,
    State.emitEnd]
  cases s.seg.first <;> cases decide (s.seg.remaining ≤ Config.chunk) <;> rfl

/-- The emit body answers one next state, or faults outside the buffer (R93, R31). -/
theorem emitBody_cases (s : State) (status : Nibble) :
    (∃ chunk, s.memRead s.seg.pos (countOf s.seg.remaining) = some chunk
        ∧ s.emitBody status
            = .next (s.setSeg (s.seg.emitted status (countOf s.seg.remaining) chunk)))
    ∨ s.emitBody status = .fault .segReadOutside := by
  simp only [State.emitBody]
  cases h : s.memRead s.seg.pos (countOf s.seg.remaining) with
  | none => exact .inr rfl
  | some chunk => exact .inl ⟨chunk, rfl, rfl⟩

/-- Under the invariant the emit body reads its chunk and answers a next state. -/
theorem emitBody_of_inv {s : State} (h : s.seg.Inv s.params) (status : Nibble) :
    s.emitBody status
      = .next (s.setSeg (s.seg.emitted status (countOf s.seg.remaining)
          (subseq s.seg.buf s.seg.pos (s.seg.pos + countOf s.seg.remaining)))) := by
  have hc := countOf_le_left s.seg.remaining
  have hp := h.pos_le
  have hl := h.len_buf
  have hr : s.seg.remaining = s.seg.len - s.seg.pos := rfl
  have hread : s.memRead s.seg.pos (countOf s.seg.remaining)
      = some (subseq s.seg.buf s.seg.pos (s.seg.pos + countOf s.seg.remaining)) := by
    rw [State.memRead, if_pos]; omega
  simp only [State.emitBody, hread]

/-- Everything `SEG.EMIT` can do: a next state that differs in SEG only, or a fault. -/
theorem segEmit_cases (s : State) :
    (∃ chunk, s.memRead s.seg.pos (countOf s.seg.remaining) = some chunk ∧ s.seg.remaining ≠ 0
        ∧ s.segEmit = .next (s.setSeg (s.seg.emitted (statusOf s.seg.first s.seg.remaining)
            (countOf s.seg.remaining) chunk)))
    ∨ ∃ r, s.segEmit = .fault r := by
  by_cases h : s.seg.remaining = 0
  · exact .inr ⟨.segNothingLeft, by simp [State.segEmit, h]⟩
  · rw [segEmit_eq_emitBody s h]
    rcases emitBody_cases s (statusOf s.seg.first s.seg.remaining) with ⟨chunk, hr, he⟩ | hf
    · exact .inl ⟨chunk, hr, h, he⟩
    · exact .inr ⟨_, hf⟩

/-- Under the invariant, `SEG.EMIT` of a running message answers a next state. -/
theorem segEmit_of_inv {s : State} (h : s.seg.Inv s.params) (hm : s.seg.mode = .run) :
    s.segEmit
      = .next (s.setSeg (s.seg.emitted (statusOf s.seg.first s.seg.remaining)
          (countOf s.seg.remaining)
          (subseq s.seg.buf s.seg.pos (s.seg.pos + countOf s.seg.remaining)))) := by
  have hr : s.seg.remaining ≠ 0 := by
    have := h.run_left hm
    simp only [SegState.remaining]; omega
  rw [segEmit_eq_emitBody s hr, emitBody_of_inv h]

/-! ### Host commands -/

/-- Everything `SEG.SUBMIT` can do (R82, R91, D5). -/
theorem segSubmit_cases (s : State) (bytes : List Byte) :
    (s.seg.mode = .run ∧ s.segSubmit bytes = .next (s.park (.submit bytes)))
    ∨ (s.seg.mode = .idle ∧ Params.within s.params.maxLen bytes.length = false
        ∧ s.segSubmit bytes = .refused .segMessageTooLong)
    ∨ (s.seg.mode = .idle ∧ bytes = [] ∧ s.segSubmit bytes = .next (s.raise .emptyPayload))
    ∨ (s.seg.mode = .idle ∧ bytes ≠ [] ∧ Params.within s.params.maxLen bytes.length = true
        ∧ s.segSubmit bytes = .next (s.setSeg (s.seg.accepted bytes))) := by
  cases hm : s.seg.mode with
  | run => exact .inl ⟨rfl, by simp [State.segSubmit, State.held, hm]⟩
  | idle =>
    cases hw : Params.within s.params.maxLen bytes.length with
    | false => exact .inr (.inl ⟨rfl, rfl, by simp [State.segSubmit, State.held, hm, hw]⟩)
    | true =>
      cases bytes with
      | nil =>
        have hw' : Params.within s.params.maxLen 0 = true := hw
        exact .inr (.inr (.inl ⟨rfl, rfl, by simp [State.segSubmit, State.held, hm, hw']⟩))
      | cons b bs =>
        have hw' : Params.within s.params.maxLen (bs.length + 1) = true := hw
        exact .inr (.inr (.inr ⟨rfl, by simp, rfl, by simp [State.segSubmit, State.held, hm, hw']⟩))

/-- Everything `SEG.POP` can do (R88). -/
theorem segPop_cases (s : State) :
    (s.seg.txq = [] ∧ s.segPop = .next (s.park .pop))
    ∨ ∃ p rest, s.seg.txq = p :: rest
        ∧ s.segPop = .next ((s.setSeg { s.seg with txq := rest }).answer (.packet p)) := by
  cases h : s.seg.txq with
  | nil => exact .inl ⟨rfl, by simp [State.segPop, h]⟩
  | cons p rest => exact .inr ⟨p, rest, rfl, by simp [State.segPop, h]⟩

end Sys2Proof.Machine
end

