-- ==== Sys2Proof/Laws/Command.lean ====
section
/-! SUPPORT. What a host command, and a step of the machine, can do, said once each. -/

namespace Sys2Proof.Machine

/-! ### Picking a command -/

/-- A picked command is not held, and is the oldest such: the held ones before it stay (R91). -/
theorem pickReady_some {s : State} {inbox : List HostCmd} {c : HostCmd} {rest : List HostCmd}
    (h : s.pickReady inbox = some (c, rest)) :
    ∃ before after, inbox = before ++ c :: after ∧ rest = before ++ after
      ∧ (∀ d ∈ before, s.held d = true) ∧ s.held c = false := by
  induction inbox generalizing c rest with
  | nil => cases h
  | cons d ds ih =>
    cases hd : s.held d with
    | false =>
      simp only [State.pickReady, hd, Bool.false_eq_true, if_false, Option.some.injEq,
        Prod.mk.injEq] at h
      obtain ⟨rfl, rfl⟩ := h
      exact ⟨[], ds, rfl, rfl, by simp, hd⟩
    | true =>
      simp only [State.pickReady, hd, if_true, Option.map_eq_some_iff, Prod.mk.injEq] at h
      obtain ⟨⟨e, rest'⟩, hp, rfl, rfl⟩ := h
      obtain ⟨before, after, rfl, rfl, hb, hc⟩ := ih hp
      exact ⟨d :: before, after, rfl, rfl, by simpa [hd] using hb, hc⟩

/-- Where nothing is picked every command is held. -/
theorem pickReady_none {s : State} {inbox : List HostCmd} (h : s.pickReady inbox = none) :
    ∀ d ∈ inbox, s.held d = true := by
  induction inbox with
  | nil => simp
  | cons d ds ih =>
    cases hd : s.held d with
    | false => simp [State.pickReady, hd] at h
    | true =>
      simp only [State.pickReady, hd, if_true, Option.map_eq_none_iff] at h
      simpa [hd] using ih h

/-- A command that is not held is picked at once. -/
@[simp] theorem pickReady_cons {s : State} {c : HostCmd} {cs : List HostCmd} (h : s.held c = false) :
    s.pickReady (c :: cs) = some (c, cs) := by
  simp [State.pickReady, h]

/-- What is held depends on SEG only. -/
theorem held_congr {s t : State} (h : s.seg = t.seg) (c : HostCmd) : s.held c = t.held c := by
  cases c <;> simp only [State.held, h]

/-! ### Register reads -/

/-- A register read gives one reply and changes nothing of the block. -/
theorem readReg_frame (s : State) (r : Reg) :
    (s.readReg r).seg = s.seg ∧ (s.readReg r).dec = s.dec ∧ (s.readReg r).params = s.params
      ∧ (s.readReg r).port.inbox = s.port.inbox
      ∧ (s.readReg r).port.replies.length = s.port.replies.length + 1 := by
  cases r with
  | decAcc =>
    cases he : s.dec.err <;> cases hm : s.dec.mode <;> simp [State.readReg, State.readAcc, he, hm]
  | decBounds =>
    cases he : s.dec.err <;> cases hm : s.dec.mode <;> simp [State.readReg, State.readBounds, he, hm]
  | _ => simp [State.readReg]

/-! ### One step -/

/-- A taken command: it was in the inbox, it is not held, and it stays not held once taken out. -/
theorem choose_take {s : State} {c : HostCmd} {rest : List HostCmd} (h : s.choose = .take c rest) :
    s.pickReady s.port.inbox = some (c, rest) ∧ s.held c = false
      ∧ (s.fetched rest).held c = false := by
  simp only [State.choose] at h
  split at h
  · split at h <;> cases h
  · rename_i c' rest' hp
    split at h
    · cases h
    · cases h
      obtain ⟨_, _, _, _, _, hh⟩ := pickReady_some hp
      exact ⟨hp, hh, by rw [held_congr (State.fetched_seg s rest)]; exact hh⟩

/-- An emit is chosen only where SEG is ready. -/
theorem choose_emit {s : State} (h : s.choose = .emit) : s.emitReady = true := by
  simp only [State.choose] at h
  split at h
  · split at h
    · assumption
    · cases h
  · split at h
    · rename_i hc; exact (Bool.and_eq_true_iff.mp hc).1
    · cases h

/-- Everything a step can be. -/
theorem step_cases (s : State) :
    (s.choose = .wait ∧ step s = .next s)
    ∨ (s.choose = .emit ∧ s.emitReady = true ∧ step s = s.spendTurn.segEmit)
    ∨ ∃ c rest, s.choose = .take c rest ∧ s.held c = false
        ∧ step s = (s.fetched rest).command c := by
  cases h : s.choose with
  | wait => exact .inl ⟨rfl, by simp [step, State.advance, h]⟩
  | emit => exact .inr (.inl ⟨rfl, choose_emit h, by simp [step, State.advance, h]⟩)
  | take c rest =>
    exact .inr (.inr ⟨c, rest, rfl, (choose_take h).2.1, by simp [step, State.advance, h]⟩)

/-- No step writes the OPEN parameters (R6). -/
theorem step_params {s t : State} (h : step s = .next t) : t.params = s.params := by
  rcases step_cases s with ⟨_, h'⟩ | ⟨hc, _, h'⟩ | ⟨c, r, hc, hh, h'⟩ <;> rw [h'] at h
  · cases h; rfl
  · rcases segEmit_cases s.spendTurn with ⟨_, _, _, he⟩ | ⟨_, he⟩ <;> rw [he] at h <;> cases h; simp
  · cases c with
    | setGroup g => cases h; simp [State.segSetGroup]
    | submit bs =>
      simp only [State.command] at h
      rcases segSubmit_cases (s.fetched r) bs with ⟨_, e⟩ | ⟨_, _, e⟩ | ⟨_, _, e⟩ | ⟨_, _, _, e⟩ <;>
        rw [e] at h <;> cases h <;> simp [State.park]
    | pop =>
      simp only [State.command] at h
      rcases segPop_cases (s.fetched r) with ⟨_, e⟩ | ⟨_, _, _, e⟩ <;> rw [e] at h <;> cases h <;>
        simp [State.park]
    | decBegin =>
      simp only [State.command] at h
      rcases decBegin_cases (s.fetched r) with ⟨_, e⟩ | ⟨_, e⟩ <;> rw [e] at h <;> cases h <;> simp
    | reset => cases h; simp [State.coreReset]
    | decPkt p =>
      simp only [State.command] at h
      rcases exec_cases (decode p) (s.fetched r) with ⟨_, e⟩ | ⟨_,_,_,e⟩ | ⟨_, _, e, _⟩ <;>
        rw [e] at h <;> cases h <;> simp
    | decEnd =>
      simp only [State.command] at h
      rcases decEnd_cases (s.fetched r) with ⟨_, e⟩ | ⟨_, e⟩ <;> rw [e] at h <;> cases h <;> simp
    | readReg q => cases h; rw [(readReg_frame _ q).2.2.1]; simp

/-- A ready SEG runs a message and has room (R87). -/
theorem emitReady_iff (s : State) : s.emitReady = true ↔ s.emits := by
  simp [State.emitReady, State.emits]

end Sys2Proof.Machine
end

