-- ==== Sys2Proof/Laws/Copies.lean ====
section
/-! SUPPORT. What a step of one of the copies can do, said once. -/

namespace Sys2Proof.Machine

/-- Everything a step of copy `k` can answer as a next state: nothing where there is no such copy, else
that copy's own step put in its place. -/
theorem stepAt_next {cs ds : Copies} {k : Nat} (h : cs.stepAt k = .next ds) :
    (cs[k]? = none ∧ ds = cs)
    ∨ ∃ s t, cs[k]? = some s ∧ step s = .next t ∧ ds = cs.set k t := by
  unfold Copies.stepAt at h
  split at h
  · rename_i hk; cases h; exact .inl ⟨hk, rfl⟩
  · rename_i s hk
    split at h
    · rename_i t ht; cases h; exact .inr ⟨s, t, hk, ht, rfl⟩
    · cases h
    · cases h

end Sys2Proof.Machine
end

