-- ==== Sys2Proof/Laws/PerInstr.lean ====
section
/-! SUPPORT. A law of every instruction, one lemma per constructor: the words of a well-formed
instruction are of its own row of the opcode table (R53 to R55). -/

namespace Sys2Proof.Laws.RowMatch

/-- The encoding of a well-formed instruction matches the instruction's row of the opcode table. -/
def Statement (i : Instr) : Prop := i.wellFormed = true → (rowOf i).holds (encode i) = true

/-- A packet of message type 3 is of a row that looks at the message type and the status. -/
theorem sysEx_row (sa sk group status count : Nibble) (b0 b1 b2 b3 b4 b5 : Byte)
    (h : status &&& sa = sk) :
    TableRow.holds
        { mask := layout 0xF#4 0#4 sa 0#4 0#16 0#32, pattern := layout 3#4 0#4 sk 0#4 0#16 0#32 }
        (sysExPacket group status count b0 b1 b2 b3 b4 b5) = true := by
  rw [holds_layout, unpack_sysExPacket]
  simp [h, Config.mtSysEx7]

/-- A foreign packet is of a row that looks at the message type. -/
theorem foreign_row (ma mk mt : Nibble) (rest : BitVec 28) (word1 : Word) (h : mt &&& ma = mk) :
    TableRow.holds
        { mask := layout ma 0#4 0#4 0#4 0#16 0#32, pattern := layout mk 0#4 0#4 0#4 0#16 0#32 }
        (foreignPacket mt rest word1) = true := by
  rw [holds_layout, unpack_foreignPacket_mt]
  simp [h]

theorem sx7One (group count : Nibble) (b0 b1 b2 b3 b4 b5 : Byte) :
    Statement (.sx7One group count b0 b1 b2 b3 b4 b5) := fun _ =>
  sysEx_row 0xF#4 0#4 group 0#4 count b0 b1 b2 b3 b4 b5 rfl

theorem sx7Start (group count : Nibble) (b0 b1 b2 b3 b4 b5 : Byte) :
    Statement (.sx7Start group count b0 b1 b2 b3 b4 b5) := fun _ =>
  sysEx_row 0xF#4 1#4 group 1#4 count b0 b1 b2 b3 b4 b5 rfl

theorem sx7Cont (group count : Nibble) (b0 b1 b2 b3 b4 b5 : Byte) :
    Statement (.sx7Cont group count b0 b1 b2 b3 b4 b5) := fun _ =>
  sysEx_row 0xF#4 2#4 group 2#4 count b0 b1 b2 b3 b4 b5 rfl

theorem sx7End (group count : Nibble) (b0 b1 b2 b3 b4 b5 : Byte) :
    Statement (.sx7End group count b0 b1 b2 b3 b4 b5) := fun _ =>
  sysEx_row 0xF#4 3#4 group 3#4 count b0 b1 b2 b3 b4 b5 rfl

theorem sx7RsvdSt4to7 (status group count : Nibble) (b0 b1 b2 b3 b4 b5 : Byte) :
    Statement (.sx7RsvdSt4to7 status group count b0 b1 b2 b3 b4 b5) := fun h =>
  sysEx_row 0xC#4 4#4 group status count b0 b1 b2 b3 b4 b5 <|
    (by decide : ∀ n : Nibble, (4 ≤ n.toNat && n.toNat ≤ 7) = true → n &&& 0xC#4 = 4#4) status h

theorem sx7RsvdSt8to15 (status group count : Nibble) (b0 b1 b2 b3 b4 b5 : Byte) :
    Statement (.sx7RsvdSt8to15 status group count b0 b1 b2 b3 b4 b5) := fun h =>
  sysEx_row 0x8#4 8#4 group status count b0 b1 b2 b3 b4 b5 <|
    (by decide : ∀ n : Nibble, decide (8 ≤ n.toNat) = true → n &&& 0x8#4 = 8#4) status h

theorem notSx7Mt0to1 (mt : Nibble) (rest : BitVec 28) (word1 : Word) :
    Statement (.notSx7Mt0to1 mt rest word1) := fun h =>
  foreign_row 0xE#4 0#4 mt rest word1 <|
    (by decide : ∀ n : Nibble, decide (n.toNat ≤ 1) = true → n &&& 0xE#4 = 0#4) mt h

theorem notSx7Mt2 (mt : Nibble) (rest : BitVec 28) (word1 : Word) :
    Statement (.notSx7Mt2 mt rest word1) := fun h =>
  foreign_row 0xF#4 2#4 mt rest word1 <|
    (by decide : ∀ n : Nibble, (n.toNat == 2) = true → n &&& 0xF#4 = 2#4) mt h

theorem notSx7Mt4to7 (mt : Nibble) (rest : BitVec 28) (word1 : Word) :
    Statement (.notSx7Mt4to7 mt rest word1) := fun h =>
  foreign_row 0xC#4 4#4 mt rest word1 <|
    (by decide : ∀ n : Nibble, (4 ≤ n.toNat && n.toNat ≤ 7) = true → n &&& 0xC#4 = 4#4) mt h

theorem notSx7Mt8to15 (mt : Nibble) (rest : BitVec 28) (word1 : Word) :
    Statement (.notSx7Mt8to15 mt rest word1) := fun h =>
  foreign_row 0x8#4 8#4 mt rest word1 <|
    (by decide : ∀ n : Nibble, decide (8 ≤ n.toNat) = true → n &&& 0x8#4 = 8#4) mt h

end Sys2Proof.Laws.RowMatch
end

