-- ==== Sys2Proof/Tests/Slice0.lean ====
section
/-! SUPPORT. Tests. Expected results come from the rules and vectors of spec/95_test_vectors.md (E, F,
M, P, Q, X numbers and the programs) and from the examples in the rules. The second half holds, for
every statement with hypotheses, concrete states and operands that meet them together. -/

namespace Sys2Proof.Tests

open Sys2Proof.Machine

/-! ### Helpers -/

/-- The next state of an outcome. -/
def nextOf {σ φ ρ : Type} : Host.Outcome σ φ ρ → Option σ
  | .next s => some s
  | .fault _ => none
  | .refused _ => none

/-- The refusal of an outcome. -/
def refusalOf {σ φ ρ : Type} : Host.Outcome σ φ ρ → Option ρ
  | .next _ => none
  | .fault _ => none
  | .refused r => some r

/-- `n` bytes that count up from `first`. -/
def countUp (first n : Nat) : List Byte := (List.range n).map fun i => BitVec.ofNat 8 (first + i)

/-- The reset state with DEC as given. -/
def withDec (d : DecState) : State := { State.reset with dec := d }

/-- A call freshly opened. -/
def openCall : State := withDec DecState.fresh

/-- A call in which `30160102 03040506` opened a run. -/
def openRun : State :=
  withDec { DecState.fresh with
    inrun := true, acc := countUp 1 6, fields := 0x3016#16, npkt := 1 }

/-- A call that has failed at its first packet, `30260102 03040506`. -/
def failedCall : State :=
  withDec { DecState.fresh with err := some .malformedRun, fields := 0x3026#16, npkt := 1 }

/-- SEG in a message, `pos` bytes of it packed, group 5. -/
def running (buf : List Byte) (pos : Nat) (first : Bool) : State :=
  { State.reset with seg :=
      { SegState.reset with mode := .run, grpL := 5#4, buf, len := buf.length, pos, first } }

/-- The host has given these commands. -/
def withInbox (s : State) (inbox : List HostCmd) : State :=
  { s with port := { s.port with inbox } }

/-- A queue of this depth. -/
def withDepth (s : State) (d : Nat) : State :=
  { s with params := { s.params with txqDepth := some d } }

/-- What a call holds after a packet. -/
structure CallView where
  acc : List Byte
  bounds : List Nat
  err : Option ErrKind
  inrun : Bool
  fields : BitVec 16
  npkt : Nat
deriving DecidableEq, Repr

/-- What the call holds after the packet `w`, numbered as the opcode table numbers it. -/
def decAfter (s : State) (w : Nat) : Option CallView :=
  (nextOf (exec (decode (tablePacket 64 w)) s)).map fun t =>
    ⟨t.dec.acc, t.dec.bounds, t.dec.err, t.dec.inrun, t.dec.fields, t.dec.npkt⟩

/-! ### WellFormed: one ill-formed term for each check -/

theorem test_wellFormed_rsvd4_low :
    (Instr.sx7RsvdSt4to7 3#4 0#4 0#4 0#8 0#8 0#8 0#8 0#8 0#8).wellFormed = false := by decide
theorem test_wellFormed_rsvd4_high :
    (Instr.sx7RsvdSt4to7 8#4 0#4 0#4 0#8 0#8 0#8 0#8 0#8 0#8).wellFormed = false := by decide
theorem test_wellFormed_rsvd8_low :
    (Instr.sx7RsvdSt8to15 7#4 0#4 0#4 0#8 0#8 0#8 0#8 0#8 0#8).wellFormed = false := by decide
theorem test_wellFormed_mt0_high : (Instr.notSx7Mt0to1 2#4 0#28 0#32).wellFormed = false := by decide
theorem test_wellFormed_mt2_low : (Instr.notSx7Mt2 1#4 0#28 0#32).wellFormed = false := by decide
theorem test_wellFormed_mt2_high : (Instr.notSx7Mt2 3#4 0#28 0#32).wellFormed = false := by decide
theorem test_wellFormed_mt4_low : (Instr.notSx7Mt4to7 3#4 0#28 0#32).wellFormed = false := by decide
theorem test_wellFormed_mt4_high : (Instr.notSx7Mt4to7 8#4 0#28 0#32).wellFormed = false := by decide
theorem test_wellFormed_mt8_low : (Instr.notSx7Mt8to15 7#4 0#28 0#32).wellFormed = false := by decide

/-- R51: a count of 6 is within the packet invariant, one of 7 is not; a foreign packet has none. -/
theorem test_countLegal :
    (Instr.sx7One 0#4 6#4 0#8 0#8 0#8 0#8 0#8 0#8).countLegal = true
    ∧ (Instr.sx7One 0#4 7#4 0#8 0#8 0#8 0#8 0#8 0#8).countLegal = false
    ∧ (Instr.notSx7Mt2 2#4 0#28 0#32).countLegal = false := by decide

/-! ### Decode: a word of every row, written out from R46, R47, R53 to R55 -/

/-- S1: `0011 0000 0000 0100 | 7E 00 | 06 01 00 00`. -/
theorem test_decode_one :
    decodeTableWord 64 0x30047E0006010000
      = some (.sx7One 0#4 4#4 0x7E#8 0x00#8 0x06#8 0x01#8 0#8 0#8) := by decide
/-- E11, first packet: group 5, status 1, count 6. -/
theorem test_decode_start :
    decodeTableWord 64 0x3516010203040506
      = some (.sx7Start 5#4 6#4 1#8 2#8 3#8 4#8 5#8 6#8) := by decide
/-- M7: group 9, status 2, count 6. -/
theorem test_decode_cont :
    decodeTableWord 64 0x3926808182838485
      = some (.sx7Cont 9#4 6#4 0x80#8 0x81#8 0x82#8 0x83#8 0x84#8 0x85#8) := by decide
/-- E11, second packet: group 5, status 3, count 1. -/
theorem test_decode_end :
    decodeTableWord 64 0x3531070000000000
      = some (.sx7End 5#4 1#4 7#8 0#8 0#8 0#8 0#8 0#8) := by decide
/-- X12: status 4, and status 7 (M9). -/
theorem test_decode_rsvd4 :
    decodeTableWord 64 0x3042010200000000
      = some (.sx7RsvdSt4to7 4#4 0#4 2#4 1#8 2#8 0#8 0#8 0#8 0#8)
    ∧ decodeTableWord 64 0x3071AA0000000000
      = some (.sx7RsvdSt4to7 7#4 0#4 1#4 0xAA#8 0#8 0#8 0#8 0#8 0#8) := by decide
/-- R55: status 8 and status 15. -/
theorem test_decode_rsvd8 :
    decodeTableWord 64 0x3081010000000000
      = some (.sx7RsvdSt8to15 8#4 0#4 1#4 1#8 0#8 0#8 0#8 0#8 0#8)
    ∧ decodeTableWord 64 0x30F1010000000000
      = some (.sx7RsvdSt8to15 15#4 0#4 1#4 1#8 0#8 0#8 0#8 0#8 0#8) := by decide
/-- R54: message types 0 and 1. -/
theorem test_decode_mt0 :
    decodeTableWord 64 0 = some (.notSx7Mt0to1 0#4 0#28 0#32)
    ∧ decodeTableWord 64 0x10F8000000000001 = some (.notSx7Mt0to1 1#4 0x0F80000#28 1#32) := by decide
/-- X13: message type 2. -/
theorem test_decode_mt2 :
    decodeTableWord 64 0x20903C6400000000 = some (.notSx7Mt2 2#4 0x0903C64#28 0#32) := by decide
/-- X14: message type 4; and 7. -/
theorem test_decode_mt4 :
    decodeTableWord 64 0x40903C0012340000 = some (.notSx7Mt4to7 4#4 0x0903C00#28 0x12340000#32)
    ∧ decodeTableWord 64 0x7000000000000000 = some (.notSx7Mt4to7 7#4 0#28 0#32) := by decide
/-- X18: message type 15; and 8. -/
theorem test_decode_mt8 :
    decodeTableWord 64 0xF0F7000000000000 = some (.notSx7Mt8to15 15#4 0x0F70000#28 0#32)
    ∧ decodeTableWord 64 0x8000000000000000 = some (.notSx7Mt8to15 8#4 0#28 0#32) := by decide

/-- The table's `word0_match` alone, the second word zeros. -/
theorem test_decode_word0_only :
    decodeTableWord 32 0x30310700 = some (.sx7End 0#4 1#4 7#8 0#8 0#8 0#8 0#8 0#8) := by decide

/-- R45, R36: what is no whole packet is rejected by name; what follows a packet is left. -/
theorem test_decodeWords :
    decodeWords [] = .error .noWord ∧ decodeWords [0x30047E00#32] = .error .loneWord
    ∧ (decodeWords [0x20903C64#32, 0#32, 7#32]).toOption
        = some (.notSx7Mt2 2#4 0x0903C64#28 0#32, [7#32])
    ∧ decodeTableWord 65 0 = none := by decide

/-- P4, P6, P7, P9: the field parser on words of every kind. -/
theorem test_unpack :
    unpack 0x20903C64#32 = ⟨2#4, 0#4, 9#4, 0#4⟩ ∧ unpack 0x30470102#32 = ⟨3#4, 0#4, 4#4, 7#4⟩
    ∧ unpack 0x3A2B0000#32 = ⟨3#4, 10#4, 2#4, 11#4⟩
    ∧ unpack 0xFFFFFFFF#32 = ⟨15#4, 15#4, 15#4, 15#4⟩ := by decide

/-- The rows of the table as data agree with the row of every instruction, in the table's order. -/
theorem test_tableRows :
    tableRows.map (fun r => r.pattern) =
      [0x3000000000000000#64, 0x3010000000000000#64, 0x3020000000000000#64, 0x3030000000000000#64,
        0x3040000000000000#64, 0x3080000000000000#64, 0x0000000000000000#64, 0x2000000000000000#64,
        0x4000000000000000#64, 0x8000000000000000#64] := by decide

/-! ### FMT -/

/-- F4, F6 to F8, F10 to F12. -/
theorem test_strip :
    strip [0xF0#8, 0x41#8, 0xF7#8] = [0xF0#8, 0x41#8, 0xF7#8]
    ∧ strip [0xF0#8, 1#8, 2#8, 0xF7#8] = [1#8, 2#8]
    ∧ strip [0xF0#8, 1#8, 2#8, 3#8] = [1#8, 2#8, 3#8]
    ∧ strip [1#8, 2#8, 3#8, 0xF7#8] = [1#8, 2#8, 3#8]
    ∧ strip [0xF0#8, 0xF0#8, 1#8, 2#8, 0xF7#8, 0xF7#8] = [0xF0#8, 1#8, 2#8, 0xF7#8]
    ∧ strip [0xF0#8, 0xF7#8, 0xF0#8, 0xF7#8] = [0xF7#8, 0xF0#8]
    ∧ strip [0xF7#8, 1#8, 2#8, 0xF0#8] = [0xF7#8, 1#8, 2#8, 0xF0#8] := by decide

/-- Section 2.2 of the vectors. -/
theorem test_statusOf :
    statusOf true 6 = 0#4 ∧ statusOf true 7 = 1#4 ∧ statusOf false 7 = 2#4 ∧ statusOf false 6 = 3#4
    ∧ countOf 1 = 1 ∧ countOf 600 = 6 := by decide

/-- M1, M5, M6, M8. -/
theorem test_pack :
    pack 0#4 0#4 [0x42#8] = ⟨0x30014200#32, 0#32⟩ ∧ pack 0#4 0#4 [] = ⟨0x30000000#32, 0#32⟩
    ∧ pack 15#4 3#4 (List.replicate 6 0xFF#8) = ⟨0x3F36FFFF#32, 0xFFFFFFFF#32⟩
    ∧ pack 1#4 1#4 (List.replicate 6 0#8) = ⟨0x31160000#32, 0#32⟩ := by decide

/-- Q2, Q3, Q4. -/
theorem test_payloadOf :
    payloadOf ⟨0x3003F0F7#32, 0x01000000#32⟩ 3 = [0xF0#8, 0xF7#8, 1#8]
    ∧ payloadOf ⟨0x30000000#32, 0#32⟩ 0 = []
    ∧ payloadOf ⟨0x3002AABB#32, 0xCCDDEEFF#32⟩ 2 = [0xAA#8, 0xBB#8] := by decide

/-! ### SEG -/

/-- E3, E7, E11, E12, E15 as whole functions. -/
theorem test_segment :
    (segment 0#4 [0xF0#8, 0x41#8, 0xF7#8]).toOption = some [⟨0x3003F041#32, 0xF7000000#32⟩]
    ∧ (segment 5#4 ([0xF0#8] ++ countUp 1 7 ++ [0xF7#8])).toOption
        = some [⟨0x35160102#32, 0x03040506#32⟩, ⟨0x35310700#32, 0#32⟩]
    ∧ (segment 0#4 (countUp 0x11 12)).toOption
        = some [⟨0x30161112#32, 0x13141516#32⟩, ⟨0x30361718#32, 0x191A1B1C#32⟩]
    ∧ (segment 0#4 []).toOption = none := by decide

/-- Program A: the submission. -/
theorem test_submit :
    (nextOf (State.reset.command
        (.submit [0xF0#8, 0x7E#8, 0#8, 6#8, 1#8, 0xF7#8]))).map (fun t => t.seg)
      = some { SegState.reset with mode := .run, buf := [0x7E#8, 0#8, 6#8, 1#8], len := 4 } := by
  decide

/-- Program E: the empty input. -/
theorem test_submit_empty :
    (nextOf (State.reset.command (.submit []))).map (fun t => (t.seg.done, t.seg.err, t.seg.mode))
      = some (true, some .emptyPayload, .idle) := by decide

/-- R83: the example. -/
theorem test_emitOne :
    (nextOf (step (running [0x7E#8, 0#8, 6#8, 1#8] 0 true))).map
        (fun t => (t.seg.txq, t.seg.pos, t.seg.mode, t.seg.result))
      = some ([⟨0x35047E00#32, 0x06010000#32⟩], 4, .idle, .ok) := by decide

/-- R84: the example, in group 5. -/
theorem test_emitStart :
    (nextOf (step (running (countUp 1 7) 0 true))).map
        (fun t => (t.seg.txq, t.seg.pos, t.seg.mode, t.seg.first))
      = some ([⟨0x35160102#32, 0x03040506#32⟩], 6, .run, false) := by decide

/-- R85: the example, in group 5. -/
theorem test_emitCont :
    (nextOf (step (running (countUp 0x21 13) 6 false))).map
        (fun t => (t.seg.txq, t.seg.pos, t.seg.mode))
      = some ([⟨0x35262728#32, 0x292A2B2C#32⟩], 12, .run) := by decide

/-- R86: the example, in group 5. -/
theorem test_emitEnd :
    (nextOf (step (running (countUp 1 7) 6 false))).map
        (fun t => (t.seg.txq, t.seg.pos, t.seg.mode, t.seg.result))
      = some ([⟨0x35310700#32, 0#32⟩], 7, .idle, .ok) := by decide

/-- R87: with a full queue SEG holds. -/
theorem test_emit_holds :
    let s := running (countUp 1 7) 0 true
    let full := withDepth { s with seg := { s.seg with txq := [⟨0x30014200#32, 0#32⟩] } } 1
    nextOf (step full) = some full := by decide

/-- R91: a later command overtakes a held submission, which keeps its place. -/
theorem test_submit_held :
    (nextOf (step (withInbox (running (countUp 1 7) 0 true) [.submit [1#8], .setGroup 9#4]))).map
        (fun t => (t.seg.group, t.seg.grpL, t.seg.buf, t.port.inbox))
      = some (9#4, 5#4, countUp 1 7, [.submit [1#8]]) := by decide

/-! ### DEC: the packets, each on one small state -/

/-- R105: the example, and inside a run. -/
theorem test_one :
    decAfter openCall 0x30047E0006010000
      = some ⟨[0x7E#8, 0#8, 6#8, 1#8], [4], none, false, 0x3004#16, 1⟩ := by decide
theorem test_one_in_run :
    decAfter openRun 0x3001070000000000
      = some ⟨[], [], some .malformedRun, false, 0x3001#16, 2⟩ := by decide
/-- R106: the example, and inside a run. -/
theorem test_start :
    decAfter openCall 0x3016010203040506
      = some ⟨countUp 1 6, [], none, true, 0x3016#16, 1⟩ := by decide
theorem test_start_in_run :
    decAfter openRun 0x3016010203040506
      = some ⟨[], [], some .malformedRun, false, 0x3016#16, 2⟩ := by decide
/-- R107: the example, and with no run open. -/
theorem test_cont :
    decAfter openRun 0x30262728292A2B2C
      = some ⟨countUp 1 6 ++ countUp 0x27 6, [], none, true, 0x3026#16, 2⟩ := by decide
theorem test_cont_no_run :
    decAfter openCall 0x30262728292A2B2C
      = some ⟨[], [], some .malformedRun, false, 0x3026#16, 1⟩ := by decide
/-- R108: the example, and with no run open. -/
theorem test_end :
    decAfter openRun 0x3031070000000000
      = some ⟨countUp 1 7, [7], none, false, 0x3031#16, 2⟩ := by decide
theorem test_end_no_run :
    decAfter openCall 0x3031070000000000
      = some ⟨[], [], some .malformedRun, false, 0x3031#16, 1⟩ := by decide
/-- R109 and R110: X12, X16. -/
theorem test_rsvd4 :
    decAfter openCall 0x3042010200000000
      = some ⟨[], [], some .malformedRun, false, 0x3042#16, 1⟩ := by decide
theorem test_rsvd4_count :
    decAfter openCall 0x3047010203040506
      = some ⟨[], [], some .invalidByteCount, false, 0x3047#16, 1⟩ := by decide
theorem test_rsvd8 :
    decAfter openRun 0x30F1010200000000
      = some ⟨[], [], some .malformedRun, false, 0x30F1#16, 2⟩ := by decide
/-- R104: types 1, 2, 4, 15; X13, Program F, X18. -/
theorem test_mt0 :
    decAfter openCall 0x10F8000000000000
      = some ⟨[], [], some .unsupportedMessageType, false, 0x10F8#16, 1⟩ := by decide
theorem test_mt2 :
    decAfter openCall 0x20903C6400000000
      = some ⟨[], [], some .unsupportedMessageType, false, 0x2090#16, 1⟩ := by decide
theorem test_mt4_in_run :
    decAfter openRun 0x40903C0012340000
      = some ⟨[], [], some .unsupportedMessageType, false, 0x4090#16, 2⟩ := by decide
theorem test_mt8 :
    decAfter openCall 0xF0F7000000000000
      = some ⟨[], [], some .unsupportedMessageType, false, 0xF0F7#16, 1⟩ := by decide
/-- Program D: a failed call counts its packets, keeps its error and its fields. -/
theorem test_failed_call :
    decAfter failedCall 0x3031070000000000
      = some ⟨[], [], some .malformedRun, false, 0x3026#16, 2⟩ := by decide

/-- X9: the call ends inside a run. -/
theorem test_end_of_call_in_run :
    (nextOf (openRun.command .decEnd)).map (fun t => (t.port.replies, t.dec.mode, t.dec.done))
      = some ([.decErr .malformedRun], .idle, true) := by decide
/-- X1: a call with no packet. -/
theorem test_end_of_empty_call :
    (nextOf (openCall.command .decEnd)).map (fun t => t.port.replies) = some [.decOk [] []] := by
  decide
/-- X4, X14, X17, X20 as whole functions. -/
theorem test_decodeCall :
    (decodeCall [⟨0x30020102#32, 0#32⟩, ⟨0x30160304#32, 0x05060708#32⟩,
        ⟨0x3036090A#32, 0x0B0C0D0E#32⟩]).toOption = some (countUp 1 14, [2, 14])
    ∧ decodeCall [⟨0x30160102#32, 0x03040506#32⟩, ⟨0x40903C00#32, 0x12340000#32⟩,
        ⟨0x30310700#32, 0#32⟩] = .error .unsupportedMessageType
    ∧ decodeCall [⟨0x3A2B0000#32, 0#32⟩] = .error .invalidByteCount
    ∧ decodeCall [⟨0x30260102#32, 0x03040506#32⟩, ⟨0x20903C64#32, 0#32⟩]
        = .error .malformedRun := by decide

/-- R126: the codes. -/
theorem test_codes :
    [errCode none, errCode (some .emptyPayload), errCode (some .unsupportedMessageType),
      errCode (some .malformedRun), errCode (some .invalidByteCount)]
      = [0#3, 1#3, 2#3, 3#3, 4#3] := by decide

/-! ### The machine, and the notation -/

/-- A placed word is run by the very next step, from reset too (R102). -/
theorem test_withFetchWord :
    (nextOf (step (State.reset.withFetchWord 64 0x30047E0006010000))).map
        (fun t => (t.dec.acc, t.dec.bounds, t.port))
      = some ([0x7E#8, 0#8, 6#8, 1#8], [4], PortState.reset)
    ∧ (nextOf (step ((running (countUp 1 7) 0 true).withFetchWord 64 0x20903C6400000000))).map
        (fun t => (t.dec.err, t.seg, t.port))
      = some (some .unsupportedMessageType, (running (countUp 1 7) 0 true).seg,
          PortState.reset) := by decide

/-- From reset, with nothing given, the machine waits (R13, R87). -/
theorem test_reset_waits : nextOf (step State.reset) = some State.reset := by decide

/-- R115: with no call open a packet is refused. -/
theorem test_packet_refused :
    refusalOf (exec (.sx7One 0#4 0#4 0#8 0#8 0#8 0#8 0#8 0#8) State.reset)
      = some .decPktNotOpen := by decide

/-- R61, R62: the examples. -/
theorem test_notation :
    packetLine ⟨0x30160102#32, 0x03040506#32⟩
      = "SX7.START g0 n6 : 01 02 03 04 05 06".toList
    ∧ packetLine ⟨0x3002AABB#32, 0xCCDDEEFF#32⟩ = "3002AABB CCDDEEFF".toList
    ∧ sysexLines 0#4 [0xF0#8, 0x7E#8, 0#8, 6#8, 1#8, 0xF7#8]
      = some ["SX7.ONE g0 n4 : 7E 00 06 01".toList]
    ∧ sysexLines 0#4 [] = none := by decide

/-! ### Witnesses: states and operands that meet the hypotheses of each statement -/

/-- The invariant from its parts, each of which a concrete state decides. -/
theorem inv_of {s : State} (h : s.params.legal = true)
    (seg : s.seg.len = s.seg.buf.length ∧ s.seg.pos ≤ s.seg.len
      ∧ (s.seg.mode = .run → s.seg.pos < s.seg.len) ∧ (s.seg.mode = .idle → s.seg.pos = s.seg.len)
      ∧ (s.seg.mode = .run → (s.seg.first = true ↔ s.seg.pos = 0))
      ∧ (s.seg.mode = .run → s.seg.pos % 6 = 0) ∧ (s.seg.mode = .run → s.seg.done = false)
      ∧ (s.seg.done = false → s.seg.err = none)
      ∧ (s.seg.err = none ∨ s.seg.err = some .emptyPayload)
      ∧ Params.within s.params.maxLen s.seg.len = true
      ∧ Params.within s.params.txqDepth s.seg.txq.length = true
      ∧ ∀ q ∈ s.seg.txq, emittedForm q = true)
    (dec : (s.dec.mode = .idle → s.dec.inrun = false) ∧ (s.dec.mode = .opened → s.dec.done = false)
      ∧ (s.dec.err ≠ none → s.dec.acc = [] ∧ s.dec.bounds = [] ∧ s.dec.inrun = false)
      ∧ s.dec.err ≠ some .emptyPayload ∧ s.dec.bounds.Pairwise (· ≤ ·)
      ∧ (∀ b ∈ s.dec.bounds, b ≤ s.dec.acc.length)
      ∧ (s.dec.err = none → s.dec.inrun = false → s.dec.acc.length = s.dec.bounds.getLastD 0)
      ∧ s.dec.acc.length ≤ 6 * s.dec.npkt ∧ s.dec.bounds.length ≤ s.dec.npkt
      ∧ Params.within s.params.maxPkts s.dec.npkt = true) : s.Inv := by
  obtain ⟨a1, a2, a3, a4, a5, a6, a7, a8, a9, a10, a11, a12⟩ := seg
  obtain ⟨b1, b2, b3, b4, b5, b6, b7, b8, b9, b10⟩ := dec
  exact ⟨h, ⟨a1, a2, a3, a4, a5, a6, a7, a8, a9, a10, a11, a12⟩,
    ⟨b1, b2, b3, b4, b5, b6, b7, b8, b9, b10⟩⟩

theorem inv_start : (running (countUp 1 7) 0 true).Inv :=
  inv_of (by decide) (by decide) (by decide)

/-- DecodeEncodeRoundTrip: every row, at both ends of its operand range. -/
theorem witness_wellFormed :
    (Instr.sx7One 15#4 15#4 0#8 0#8 0#8 0#8 0#8 0#8).wellFormed = true
    ∧ (Instr.sx7Start 0#4 0#4 0#8 0#8 0#8 0#8 0#8 0#8).wellFormed = true
    ∧ (Instr.sx7Cont 0#4 6#4 0#8 0#8 0#8 0#8 0#8 0#8).wellFormed = true
    ∧ (Instr.sx7End 0#4 7#4 0#8 0#8 0#8 0#8 0#8 0#8).wellFormed = true
    ∧ (Instr.sx7RsvdSt4to7 4#4 0#4 0#4 0#8 0#8 0#8 0#8 0#8 0#8).wellFormed = true
    ∧ (Instr.sx7RsvdSt4to7 7#4 0#4 0#4 0#8 0#8 0#8 0#8 0#8 0#8).wellFormed = true
    ∧ (Instr.sx7RsvdSt8to15 8#4 0#4 0#4 0#8 0#8 0#8 0#8 0#8 0#8).wellFormed = true
    ∧ (Instr.sx7RsvdSt8to15 15#4 0#4 0#4 0#8 0#8 0#8 0#8 0#8 0#8).wellFormed = true
    ∧ (Instr.notSx7Mt0to1 0#4 0#28 0#32).wellFormed = true
    ∧ (Instr.notSx7Mt0to1 1#4 0#28 0#32).wellFormed = true
    ∧ (Instr.notSx7Mt2 2#4 0#28 0#32).wellFormed = true
    ∧ (Instr.notSx7Mt4to7 4#4 0#28 0#32).wellFormed = true
    ∧ (Instr.notSx7Mt4to7 7#4 0#28 0#32).wellFormed = true
    ∧ (Instr.notSx7Mt8to15 8#4 0#28 0#32).wellFormed = true
    ∧ (Instr.notSx7Mt8to15 15#4 0#28 0#32).wellFormed = true := by decide

/-- PackPlacesBytes: chunks of 0, 1, 2 and 6 bytes. -/
theorem witness_PackPlacesBytes :
    (countUp 1 0).length ≤ 1 ∧ (countUp 1 1).length ≤ 1 ∧ (countUp 1 2).length ≤ 2
    ∧ (countUp 1 6).length ≤ 6 := by decide

/-- MarshallingRoundTrip: a chunk of 0 and of 6 bytes; a packet with zero padding (M4), a full one
(M6), and one whose padding is not zero (X3). -/
theorem witness_MarshallingRoundTrip :
    ((countUp 1 0).length ≤ 6 ∧ (countUp 1 6).length ≤ 6)
    ∧ (let p : Packet := ⟨0x30050102#32, 0x03040500#32⟩;
      (unpack p.word0).mt = 0x3#4 ∧ (unpack p.word0).count.toNat ≤ 6
        ∧ ∀ b ∈ p.slots.drop (unpack p.word0).count.toNat, b = 0#8)
    ∧ (let p : Packet := ⟨0x3F36FFFF#32, 0xFFFFFFFF#32⟩;
      (unpack p.word0).mt = 0x3#4 ∧ (unpack p.word0).count.toNat ≤ 6
        ∧ ∀ b ∈ p.slots.drop (unpack p.word0).count.toNat, b = 0#8)
    ∧ (let p : Packet := ⟨0x3002AABB#32, 0xCCDDEEFF#32⟩;
      (unpack p.word0).mt = 0x3#4 ∧ (unpack p.word0).count.toNat ≤ 6
        ∧ ∃ b ∈ p.slots.drop (unpack p.word0).count.toNat, b ≠ 0#8) := by decide

/-- StripRemovesEachEnd and StripLengthBounds: lengths 0, 3 and 4. -/
theorem witness_Strip :
    (countUp 1 0).length ≤ 3 ∧ (countUp 1 3).length ≤ 3 ∧ countUp 1 3 ≠ []
    ∧ 3 < (countUp 1 4).length ∧ 2 ≤ (countUp 1 2).length := by decide

/-- StatusAndCountRule: 1, 6 and 7 bytes left. -/
theorem witness_StatusAndCountRule : 1 ≤ 1 ∧ 1 ≤ 6 ∧ 6 ≤ 6 ∧ 6 < 7 := by decide

/-- SetGroupEffect: a running message's emit answers a next state; an idle SEG with a legal message. -/
theorem witness_SetGroupEffect :
    (nextOf (running (countUp 1 7) 0 true).segEmit).isSome = true
    ∧ State.reset.seg.mode = .idle ∧ countUp 1 7 ≠ []
    ∧ Params.within State.reset.params.maxLen (countUp 1 7).length = true := by decide

/-- SubmitEffect: a running SEG; an idle one with no byte, with as many as `MAX_LEN` admits, and with
one more. -/
theorem witness_SubmitEffect :
    (running (countUp 1 7) 0 true).seg.mode = .run ∧ State.reset.seg.mode = .idle
    ∧ countUp 1 0 = [] ∧ countUp 1 7 ≠ [] ∧ Params.within (some 7) (countUp 1 7).length = true
    ∧ Params.within (some 7) (countUp 1 8).length = false := by decide

/-- EmitOneEffect: payloads of 1 and of 6 bytes. -/
theorem witness_EmitOneEffect :
    ((running (countUp 1 1) 0 true).Inv ∧ (running (countUp 1 1) 0 true).emits
      ∧ (running (countUp 1 1) 0 true).seg.first = true
      ∧ (running (countUp 1 1) 0 true).seg.remaining ≤ 6)
    ∧ ((running (countUp 1 6) 0 true).Inv ∧ (running (countUp 1 6) 0 true).emits
      ∧ (running (countUp 1 6) 0 true).seg.first = true
      ∧ (running (countUp 1 6) 0 true).seg.remaining ≤ 6) :=
  ⟨⟨inv_of (by decide) (by decide) (by decide), by decide⟩,
    ⟨inv_of (by decide) (by decide) (by decide), by decide⟩⟩

/-- EmitStartEffect: a payload of 7 bytes. -/
theorem witness_EmitStartEffect :
    (running (countUp 1 7) 0 true).Inv ∧ (running (countUp 1 7) 0 true).emits
    ∧ (running (countUp 1 7) 0 true).seg.first = true
    ∧ 6 < (running (countUp 1 7) 0 true).seg.remaining :=
  ⟨inv_start, by decide⟩

/-- EmitContEffect: 7 of 13 bytes left. -/
theorem witness_EmitContEffect :
    (running (countUp 1 13) 6 false).Inv ∧ (running (countUp 1 13) 6 false).emits
    ∧ (running (countUp 1 13) 6 false).seg.first = false
    ∧ 6 < (running (countUp 1 13) 6 false).seg.remaining :=
  ⟨inv_of (by decide) (by decide) (by decide), by decide⟩

/-- EmitEndEffect: 1 of 7 and 6 of 12 bytes left. -/
theorem witness_EmitEndEffect :
    ((running (countUp 1 7) 6 false).Inv ∧ (running (countUp 1 7) 6 false).emits
      ∧ (running (countUp 1 7) 6 false).seg.first = false
      ∧ (running (countUp 1 7) 6 false).seg.remaining ≤ 6)
    ∧ ((running (countUp 1 12) 6 false).Inv ∧ (running (countUp 1 12) 6 false).emits
      ∧ (running (countUp 1 12) 6 false).seg.first = false
      ∧ (running (countUp 1 12) 6 false).seg.remaining ≤ 6) :=
  ⟨⟨inv_of (by decide) (by decide) (by decide), by decide⟩,
    ⟨inv_of (by decide) (by decide) (by decide), by decide⟩⟩

/-- A running SEG whose queue, of depth 1, is full. -/
def stalled : State :=
  let s := running (countUp 1 7) 6 false
  withDepth { s with seg := { s.seg with txq := [⟨0x35160102#32, 0x03040506#32⟩] } } 1

/-- EmitsOrHolds: an idle SEG, a full queue, a ready SEG. -/
theorem witness_EmitsOrHolds :
    (State.reset.Inv ∧ State.reset.port.inbox = [] ∧ State.reset.seg.mode = .idle)
    ∧ (stalled.Inv ∧ stalled.port.inbox = [] ∧ stalled.seg.mode = .run
      ∧ Params.reached stalled.params.txqDepth stalled.seg.txq.length = true)
    ∧ ((running (countUp 1 7) 0 true).Inv ∧ (running (countUp 1 7) 0 true).port.inbox = []
      ∧ (running (countUp 1 7) 0 true).emits) :=
  ⟨⟨inv_of (by decide) (by decide) (by decide), by decide⟩,
    ⟨inv_of (by decide) (by decide) (by decide), by decide⟩, ⟨inv_start, by decide⟩⟩

/-- SegmentMachineAgrees: an idle SEG with a queue of depth 2, given 7 bytes (two packets, which just
fit), and given none. -/
theorem witness_SegmentMachineAgrees :
    (let s := withInbox (withDepth State.reset 2) [.submit (countUp 1 7)];
      s.Inv ∧ s.seg.mode = .idle ∧ s.port.inbox = [.submit (countUp 1 7)]
      ∧ Params.within s.params.maxLen (countUp 1 7).length = true
      ∧ (segment s.seg.group (countUp 1 7)).toOption.map
          (fun out => Params.within s.params.txqDepth (s.seg.txq.length + out.length)) = some true)
    ∧ (let s := withInbox State.reset [.submit []];
      s.Inv ∧ s.seg.mode = .idle ∧ s.port.inbox = [.submit []]
      ∧ Params.within s.params.maxLen ([] : List Byte).length = true
      ∧ (segment s.seg.group []).toOption = none) :=
  ⟨⟨inv_of (by decide) (by decide) (by decide), by decide⟩,
    ⟨inv_of (by decide) (by decide) (by decide), by decide⟩⟩

/-- SegmentShape, SegmentEmitsOnlyForm, DecodeOfSegment: messages of 1, 6, 7 and 13 payload bytes. -/
theorem witness_segment :
    countUp 1 1 ≠ [] ∧ (segment 0#4 (countUp 1 1)).toOption.map List.length = some 1
    ∧ (segment 0#4 (countUp 1 6)).toOption.map List.length = some 1
    ∧ (segment 0#4 (countUp 1 7)).toOption.map List.length = some 2
    ∧ (segment 0#4 (countUp 1 13)).toOption.map List.length = some 3 := by decide

/-- SubmitHeldWhileRunning: behind a running message that can step, alone and with another command;
and an idle SEG. -/
theorem witness_SubmitHeldWhileRunning :
    (let s := withInbox (running (countUp 1 7) 0 true) [.submit [1#8], .setGroup 9#4];
      s.port.inbox = .submit [1#8] :: [.setGroup 9#4] ∧ s.seg.mode = .run
        ∧ (nextOf (step s)).isSome = true)
    ∧ (let s := withInbox (running (countUp 1 7) 0 true) [.submit [1#8]];
      s.port.inbox = .submit [1#8] :: [] ∧ s.Inv ∧ s.emits)
    ∧ (let s := withInbox State.reset [.submit [1#8]];
      s.port.inbox = .submit [1#8] :: [] ∧ s.seg.mode = .idle) :=
  ⟨by decide, ⟨by decide, inv_of (by decide) (by decide) (by decide), by decide⟩, by decide⟩

/-- PopTakesHead: a queue that holds a packet; an empty one with SEG idle, and with SEG ready. -/
theorem witness_PopTakesHead :
    stalled.seg.txq = ⟨0x35160102#32, 0x03040506#32⟩ :: []
    ∧ (let s := withInbox State.reset [.pop];
      s.seg.txq = [] ∧ s.port.inbox = [.pop] ∧ s.emitReady = false)
    ∧ (let s := withInbox (running (countUp 1 7) 0 true) [.pop];
      s.seg.txq = [] ∧ s.port.inbox = [.pop] ∧ s.emitReady = true ∧ s.Inv) :=
  ⟨by decide, by decide, by decide, by decide, by decide, inv_of (by decide) (by decide) (by decide)⟩

/-- BeginOpensFreshCall, DecoderRefusals: no call open, a call open, and a full call. -/
theorem witness_decoder_modes :
    State.reset.dec.mode = .idle ∧ openCall.dec.mode = .opened
    ∧ (let s : State := { openRun with params := { openRun.params with maxPkts := some 1 } };
      s.dec.mode = .opened ∧ s.params.maxPkts = some s.dec.npkt) := by decide

/-- The statements about one packet: DEC looks at it, with no run open and inside a run, with a count
of 0, of 6, of 7 and of 15; also with `MAX_PKTS` not quite reached. -/
theorem witness_packets :
    (openCall.examines ∧ openCall.dec.inrun = false) ∧ (openRun.examines ∧ openRun.dec.inrun = true)
    ∧ ({ openRun with params := { openRun.params with maxPkts := some 2 } } : State).examines
    ∧ (0#4 : Nibble).toNat ≤ 6 ∧ (6#4 : Nibble).toNat ≤ 6 ∧ 6 < (7#4 : Nibble).toNat
    ∧ 6 < (15#4 : Nibble).toNat := by decide

/-- RunStateMachine: an accepted packet and a failing one. -/
theorem witness_RunStateMachine :
    (Instr.sx7End 0#4 6#4 0#8 0#8 0#8 0#8 0#8 0#8).wellFormed = true
    ∧ (Instr.sx7End 0#4 6#4 0#8 0#8 0#8 0#8 0#8 0#8).countLegal = true
    ∧ (Instr.sx7RsvdSt8to15 15#4 0#4 0#4 0#8 0#8 0#8 0#8 0#8 0#8).wellFormed = true
    ∧ (Instr.sx7RsvdSt8to15 15#4 0#4 0#4 0#8 0#8 0#8 0#8 0#8 0#8).countLegal = true
    ∧ openCall.examines ∧ openRun.examines := by decide

/-- FailedCallIgnoresPackets. -/
theorem witness_FailedCallIgnoresPackets :
    failedCall.dec.mode = .opened
    ∧ Params.reached failedCall.params.maxPkts failedCall.dec.npkt = false
    ∧ failedCall.dec.err ≠ none := by decide

/-- EndOfCallEffect: no run open, a run open, a failed call; and a command after the end. -/
theorem witness_EndOfCallEffect :
    (openCall.dec.mode = .opened ∧ openCall.dec.err = none ∧ openCall.dec.inrun = false)
    ∧ (openRun.dec.mode = .opened ∧ openRun.dec.err = none ∧ openRun.dec.inrun = true)
    ∧ (failedCall.dec.mode = .opened ∧ failedCall.dec.err = some .malformedRun)
    ∧ ((nextOf (openCall.command .decEnd)).bind
        (fun t => nextOf (t.command (.readReg .decErr)))).isSome = true := by decide

/-- CallAgreesWithDecode: two packets in a call that takes just two, with SEG idle; and a call with
none, beside a running SEG that has the first turn. -/
theorem witness_CallAgreesWithDecode :
    let ps : List Packet := [⟨0x30160102#32, 0x03040506#32⟩, ⟨0x30310700#32, 0#32⟩]
    let s : State := withInbox { State.reset with params := { Params.unbounded with maxPkts := some 2 } }
      (.decBegin :: (ps.map HostCmd.decPkt ++ [.decEnd]))
    let b : State := { running (countUp 1 7) 0 true with
      port := { PortState.reset with inbox := [.decBegin, .decEnd], turns := [.seg] } }
    (s.Inv ∧ s.dec.mode = .idle ∧ Params.within s.params.maxPkts ps.length = true
      ∧ s.port.inbox = .decBegin :: (ps.map HostCmd.decPkt ++ [.decEnd]) ∧ s.emitReady = false)
    ∧ (b.Inv ∧ b.dec.mode = .idle
      ∧ Params.within b.params.maxPkts ([] : List Packet).length = true
      ∧ b.port.inbox = .decBegin :: (([] : List Packet).map HostCmd.decPkt ++ [.decEnd])
      ∧ b.choose = .emit) :=
  ⟨⟨inv_of (by decide) (by decide) (by decide), by decide⟩,
    ⟨inv_of (by decide) (by decide) (by decide), by decide⟩⟩

/-- AcceptedStatusSequences: a run, accepted, and two continues, not accepted. -/
theorem witness_AcceptedStatusSequences :
    (∀ p ∈ [(⟨0x30160102#32, 0x03040506#32⟩ : Packet), ⟨0x30310700#32, 0#32⟩], passesTests p = true)
    ∧ (decodeCall [⟨0x30160102#32, 0x03040506#32⟩, ⟨0x30310700#32, 0#32⟩]).toOption.isSome = true
    ∧ (∀ p ∈ [(⟨0x30260102#32, 0x03040506#32⟩ : Packet)], passesTests p = true)
    ∧ (decodeCall [⟨0x30260102#32, 0x03040506#32⟩]).toOption = none := by decide

/-- PacketFrame: an accepted packet, a failing one, an ignored one. -/
theorem witness_PacketFrame :
    (decAfter openCall 0x30047E0006010000).isSome = true
    ∧ (decAfter openCall 0x20903C6400000000).isSome = true
    ∧ (decAfter failedCall 0x30047E0006010000).isSome = true := by decide

/-- GroupAndPaddingUnchecked: two packets that differ in group and padding. -/
theorem witness_GroupAndPaddingUnchecked :
    let p : Packet := ⟨0x3002AABB#32, 0#32⟩
    let q : Packet := ⟨0x3902AABB#32, 0xCCDDEEFF#32⟩
    (unpack p.word0).mt = 0x3#4 ∧ (unpack q.word0).mt = 0x3#4
    ∧ (unpack p.word0).status = (unpack q.word0).status
    ∧ (unpack p.word0).count = (unpack q.word0).count
    ∧ payloadOf p (unpack p.word0).count.toNat = payloadOf q (unpack q.word0).count.toNat
    ∧ (nextOf (exec (decode p) openCall)).isSome = true := by decide

/-- FirstErrorSticks: a failed call at the end of the call, at the next one, and at a reset. -/
theorem witness_FirstErrorSticks :
    failedCall.dec.err = some .malformedRun
    ∧ (nextOf (step (withInbox failedCall [.decEnd]))).isSome = true
    ∧ (nextOf (step (withInbox failedCall [.reset]))).isSome = true
    ∧ (let s : State := { failedCall with dec := { failedCall.dec with mode := .idle, done := true } };
      s.dec.err = some .malformedRun
        ∧ (nextOf (step (withInbox s [.decBegin]))).isSome = true) := by decide

/-- ResetMeetsInv: unbounded parameters, and the least legal queue. -/
theorem witness_ResetMeetsInv :
    Params.unbounded.legal = true
    ∧ ({ maxLen := some 0, maxPkts := some 0, txqDepth := some 1 } : Params).legal = true := by decide

/-- StepKeepsInv, StepNeverFaults: a state that meets the invariant and steps. -/
theorem witness_StepKeepsInv :
    (running (countUp 1 7) 0 true).Inv
    ∧ (nextOf (step (running (countUp 1 7) 0 true))).isSome = true :=
  ⟨inv_start, by decide⟩

/-- StepRunsDecodedPacket: the host's packet steps, alone and before a ready SEG's emit. -/
theorem witness_StepRunsDecodedPacket :
    (withInbox openCall [.decPkt ⟨0x30014200#32, 0#32⟩]).choose
      = .take (.decPkt ⟨0x30014200#32, 0#32⟩) []
    ∧ (withInbox (running (countUp 1 7) 0 true) [.decPkt ⟨0x30014200#32, 0#32⟩, .decEnd]).choose
      = .take (.decPkt ⟨0x30014200#32, 0#32⟩) [.decEnd] := by decide

/-- EmitCommutesWithDecoder: a ready SEG beside a call. -/
theorem witness_EmitCommutesWithDecoder :
    let s : State := { running (countUp 1 7) 0 true with dec := openCall.dec }
    (nextOf s.segEmit).isSome = true
    ∧ (nextOf (s.command (.decPkt ⟨0x30014200#32, 0#32⟩))).isSome = true
    ∧ (nextOf (s.command .decEnd)).isSome = true
    ∧ (nextOf ((running (countUp 1 7) 0 true).command .decBegin)).isSome = true := by decide

/-- OnlySubmitStartsMessage: a step that starts a message, one that ends it, and a reset. -/
theorem witness_OnlySubmitStartsMessage :
    ((withInbox State.reset [.submit [1#8]]).Inv
      ∧ (withInbox State.reset [.submit [1#8]]).seg.mode = .idle
      ∧ (nextOf (step (withInbox State.reset [.submit [1#8]]))).map (fun t => t.seg.mode) = some .run)
    ∧ ((running (countUp 1 1) 0 true).Inv ∧ (running (countUp 1 1) 0 true).seg.mode = .run
      ∧ (nextOf (step (running (countUp 1 1) 0 true))).map (fun t => t.seg.mode) = some .idle)
    ∧ (nextOf (step (withInbox (running (countUp 1 7) 0 true) [.reset]))).map (fun t => t.seg.mode)
        = some .idle :=
  ⟨⟨inv_of (by decide) (by decide) (by decide), by decide⟩,
    ⟨inv_of (by decide) (by decide) (by decide), by decide⟩, by decide⟩

/-- QueueIsFirstInFirstOut: an emit, a pop and a reset step; ResetKeepsHostSide: a reset. -/
theorem witness_QueueIsFirstInFirstOut :
    (nextOf (step (running (countUp 1 7) 0 true))).map (fun t => t.seg.txq.length) = some 1
    ∧ (nextOf (step (withInbox stalled [.pop]))).map (fun t => t.seg.txq) = some []
    ∧ (nextOf (step (withInbox stalled [.reset]))).map (fun t => t.seg.txq) = some []
    ∧ (nextOf (stalled.command .reset)).isSome = true := by decide

/-- OnlySetGroupWritesGroup: a step that writes `SEG.GROUP`, and one that writes `SEG.GRP_L`. -/
theorem witness_OnlySetGroupWritesGroup :
    (nextOf (step (withInbox State.reset [.setGroup 5#4]))).map (fun t => t.seg.group) = some 5#4
    ∧ (let s : State := { State.reset with seg := { SegState.reset with group := 5#4 } };
      (nextOf (step (withInbox s [.submit [1#8]]))).map (fun t => t.seg.grpL) = some 5#4) := by decide

/-- OnlyHostChangesDecoder: a step that changes DEC. -/
theorem witness_OnlyHostChangesDecoder :
    (nextOf (step (withInbox State.reset [.decBegin]))).map (fun t => decide (t.dec ≠ State.reset.dec))
      = some true := by decide

/-- RegisterReadsValue: the result of a call that is over, and of a failed one. -/
theorem witness_RegisterReadsValue :
    (State.reset.dec.err = none ∧ State.reset.dec.mode = .idle) ∧ failedCall.dec.err ≠ none := by
  decide

/-- CallsOweNothing: two idle units with different pasts and one group. -/
theorem witness_CallsOweNothing :
    let s : State := { State.reset with
      dec := { openRun.dec with mode := .idle, done := true }
      seg := { SegState.reset with
        buf := [1#8], len := 1, pos := 1, done := true, txq := [⟨0x30010100#32, 0#32⟩] } }
    (nextOf (s.command .decBegin)).isSome = true
    ∧ (nextOf (State.reset.command .decBegin)).isSome = true
    ∧ [2#8] ≠ ([] : List Byte) ∧ s.seg.mode = .idle ∧ State.reset.seg.mode = .idle
    ∧ s.seg.group = State.reset.seg.group
    ∧ (nextOf (s.command (.submit [2#8]))).isSome = true
    ∧ (nextOf (State.reset.command (.submit [2#8]))).isSome = true := by decide

/-- CopiesIndependent: the second of two copies steps. -/
theorem witness_CopiesIndependent :
    (Copies.reset 2)[1]? = some State.reset
    ∧ (nextOf ((Copies.reset 2).stepAt 1)).isSome = true := by decide

/-- CopiesStayLegal: one copy, the fewest that are legal, steps; no copy is not legal. -/
theorem witness_CopiesStayLegal :
    (Copies.reset 1).legal = true ∧ (nextOf ((Copies.reset 1).stepAt 0)).isSome = true
    ∧ (Copies.reset 0).legal = false := by decide

/-- LengthsFitTheirWidth: `MAX_LEN = 7` needs 3 bits. -/
theorem witness_LengthsFitTheirWidth :
    let s : State := { running (countUp 1 7) 0 true with
      params := { Params.unbounded with maxLen := some 7 } }
    s.Inv ∧ s.params.lw = some 3 :=
  ⟨inv_of (by decide) (by decide) (by decide),
    congrArg some (show Nat.clog 2 (2 ^ 3) = 3 from Nat.clog_pow 2 3 (by decide))⟩

end Sys2Proof.Tests
end

section
/-! PROOFS. The reset (R29, R150): its step, and the values it leaves. -/

namespace Sys2Proof.Machine

/-- The reset waits for nothing (R150). -/
@[simp] theorem held_reset (s : State) : s.held .reset = false := rfl

/-- The reset is one step and cannot fail (R150). -/
@[simp] theorem command_reset (s : State) : s.command .reset = .next s.coreReset := rfl

/-- No result stands while `SEG.DONE` is clear, whatever `SEG.ERR` holds (R20). -/
theorem result_eq_none_of_not_done {g : SegState} (h : g.done = false) : g.result = .none := by
  simp only [SegState.result, h]

/-- Settles O43: the reset command is one step to `State.coreReset`, whose SEG and DEC are
`SegState.reset` and `DecState.reset`, the very records the statement writes out field by field. -/
theorem resetValues : Obligations.ResetValues := by
  unfold Obligations.ResetValues
  refine ⟨fun s => ⟨held_reset s, s.coreReset, command_reset s, ?seg, ?dec⟩, rfl, rfl, ?result⟩
  case seg => exact s.coreReset_seg
  case dec => exact s.coreReset_dec
  case result => exact result_eq_none_of_not_done rfl

end Sys2Proof.Machine
end

section
/-! PROOFS. The two words of a packet of message type 3 (R46, R47) and what `pack` writes into them
(R52, R70). -/

namespace Sys2Proof.Machine

/-! ### The words as one expression each -/

/-- Fields laid side by side are the fields shifted into place and joined by `|` (R46). -/
theorem word0_sysExPacket_eq_or (group status count : Nibble) (b0 b1 b2 b3 b4 b5 : Byte) :
    (sysExPacket group status count b0 b1 b2 b3 b4 b5).word0
      = (0x3#32 <<< 28) ||| (group.zeroExtend 32 <<< 24) ||| (status.zeroExtend 32 <<< 20)
        ||| (count.zeroExtend 32 <<< 16) ||| (b0.zeroExtend 32 <<< 8) ||| b1.zeroExtend 32 := by
  have h3 : (Config.mtSysEx7).setWidth 32 = 0x3#32 := rfl
  calc
    _ = (Config.mtSysEx7 ++ group ++ status ++ count ++ b0 ++ b1).setWidth 32 :=
      (BitVec.setWidth_eq _).symm
    _ = _ := by
      simp only [BitVec.setWidth_append_eq_shiftLeft_setWidth_or, BitVec.shiftLeft_or_distrib,
        ← BitVec.shiftLeft_add, h3]

/-- The same for the second word (R47). -/
theorem word1_sysExPacket_eq_or (group status count : Nibble) (b0 b1 b2 b3 b4 b5 : Byte) :
    (sysExPacket group status count b0 b1 b2 b3 b4 b5).word1
      = (b2.zeroExtend 32 <<< 24) ||| (b3.zeroExtend 32 <<< 16) ||| (b4.zeroExtend 32 <<< 8)
        ||| b5.zeroExtend 32 := by
  calc
    _ = (b2 ++ b3 ++ b4 ++ b5).setWidth 32 := (BitVec.setWidth_eq _).symm
    _ = _ := by
      simp only [BitVec.setWidth_append_eq_shiftLeft_setWidth_or, BitVec.shiftLeft_or_distrib,
        ← BitVec.shiftLeft_add]

/-- Settles O4: the two expressions are the concatenations of the encoder, and each field is read
off the words' values (`toNat_word0`, `toNat_word1`): the fields below it do not reach its bits. -/
theorem packetWordsLayout : Obligations.PacketWordsLayout := by
  unfold Obligations.PacketWordsLayout
  intro group status count b0 b1 b2 b3 b4 b5
  have hg := group.isLt; have hs := status.isLt; have hc := count.isLt
  have h0 := b0.isLt; have h1 := b1.isLt; have h2 := b2.isLt
  have h3 := b3.isLt; have h4 := b4.isLt; have h5 := b5.isLt
  refine ⟨word0_sysExPacket_eq_or .., word1_sysExPacket_eq_or .., ?fields⟩
  case fields =>
    simp only [toNat_word0, toNat_word1]
    refine ⟨?mt, ?group, ?status, ?count, ?b0, ?b1, ?b2, ?b3, ?b4, ?b5⟩ <;> omega

/-! ### What `pack` writes -/

/-- A slot of a packed chunk is the chunk's byte, or zero past its end (R52, R70). -/
theorem zeroExtend_paddedByte (chunk : List Byte) (i : Nat) :
    (paddedByte chunk i).zeroExtend 32
      = if h : i < chunk.length then chunk[i].zeroExtend 32 else 0#32 := by
  unfold paddedByte
  split
  next h => rw [List.getD_eq_getElem _ _ h]
  next h => rw [List.getD_eq_default _ _ (Nat.le_of_not_lt h)]; rfl

/-- Past the end of the chunk a slot holds zero (R52). -/
theorem paddedByte_eq_zero {chunk : List Byte} {i : Nat} (h : chunk.length ≤ i) :
    paddedByte chunk i = 0#8 :=
  List.getD_eq_default _ _ h

/-- A count of at most 6 is the same number in a word as in its field. -/
theorem zeroExtend_count {n : Nat} (h : n ≤ 6) :
    (BitVec.ofNat 4 n).zeroExtend 32 = BitVec.ofNat 32 n := by
  apply BitVec.eq_of_toNat_eq
  rw [BitVec.toNat_setWidth, toNat_count h, BitVec.toNat_ofNat]

/-- The largest first word has every field but the count at its top, and the count at 6 (R70). -/
theorem toNat_word0_pack_le (group status : Nibble) {chunk : List Byte} (h : chunk.length ≤ 6) :
    (pack group status chunk).word0.toNat ≤ 0x3FF6FFFF := by
  have hg := group.isLt; have hs := status.isLt
  have h0 := (paddedByte chunk 0).isLt; have h1 := (paddedByte chunk 1).isLt
  rw [pack, toNat_word0, toNat_count h]
  omega

/-- At most one byte leaves the second byte of the first word zero. -/
theorem word0_pack_low_eq_zero (group status : Nibble) {chunk : List Byte}
    (h : chunk.length ≤ 1) : (pack group status chunk).word0.toNat % 2 ^ 8 = 0 := by
  rw [pack, toNat_word0, paddedByte_eq_zero h, BitVec.toNat_zero]
  omega

/-- At most two bytes leave the second word zero: its four slots are all padding. -/
theorem word1_pack_eq_zero (group status : Nibble) {chunk : List Byte} (h : chunk.length ≤ 2) :
    (pack group status chunk).word1 = 0#32 := by
  have hz (i : Nat) (hi : 2 ≤ i) : paddedByte chunk i = 0#8 := paddedByte_eq_zero (h.trans hi)
  rw [pack, hz 2 (by decide), hz 3 (by decide), hz 4 (by decide), hz 5 (by decide)]
  rfl

/-- Settles O5: the words of `pack` are those of the encoder with the padded bytes in the slots. -/
theorem packPlacesBytes : Obligations.PackPlacesBytes := by
  unfold Obligations.PackPlacesBytes
  intro group status chunk hlen
  refine ⟨?word0, ?word1, toNat_word0_pack_le group status hlen,
    word0_pack_low_eq_zero group status, word1_pack_eq_zero group status⟩
  case word0 =>
    simp only [← zeroExtend_paddedByte, ← zeroExtend_count hlen]
    exact word0_sysExPacket_eq_or ..
  case word1 =>
    simp only [← zeroExtend_paddedByte]
    exact word1_sysExPacket_eq_or ..

end Sys2Proof.Machine
end

section
/-! PROOFS. The functions of FMT: the field parser (R71), the status and byte-count rule (R68, R69),
the frame parser (R66), and `pack` against the field parser and `payload_of` (R73). -/

namespace Sys2Proof.Machine

/-! ### The field parser -/

/-- Settles O6: each field is a slice of the word; nothing stands above the topmost one. -/
theorem unpackReadsFields : Obligations.UnpackReadsFields := by
  unfold Obligations.UnpackReadsFields
  intro w
  refine ⟨?mt, toNat_slice w 24 4, toNat_slice w 20 4, toNat_slice w 16 4⟩
  case mt =>
    have hw : w.toNat / 2 ^ 28 < 2 ^ 4 := by have := w.isLt; omega
    exact (toNat_slice w 28 4).trans (Nat.mod_eq_of_lt hw)

/-! ### The status and byte-count rule -/

/-- With at most one packet's bytes left the packet is `one` or `end` (R68). -/
theorem statusOf_of_le {remaining : Nat} (h : remaining ≤ 6) (isFirst : Bool) :
    statusOf isFirst remaining = if isFirst then 0#4 else 3#4 := by
  have hd : decide (remaining ≤ Config.chunk) = true := decide_eq_true h
  cases isFirst <;> simp [statusOf, hd]

/-- With more left the packet is `start` or `continue` (R68). -/
theorem statusOf_of_lt {remaining : Nat} (h : 6 < remaining) (isFirst : Bool) :
    statusOf isFirst remaining = if isFirst then 1#4 else 2#4 := by
  have hd : decide (remaining ≤ Config.chunk) = false := decide_eq_false (Nat.not_le.mpr h)
  cases isFirst <;> simp [statusOf, hd]

/-- Settles O11: the rule on either side of 6 bytes left, and the bounds of `count_of`. -/
theorem statusAndCountRule : Obligations.StatusAndCountRule := by
  unfold Obligations.StatusAndCountRule
  intro remaining hpos
  exact ⟨fun h => ⟨statusOf_of_le h true, statusOf_of_le h false⟩,
    fun h => ⟨statusOf_of_lt h true, statusOf_of_lt h false⟩,
    rfl, countOf_pos hpos, countOf_le remaining⟩

/-! ### The frame parser -/

/-- The subsequence between a front and a back part is what stands between them. -/
theorem subseq_between {α : Type} (front mid back : List α) (i : Nat) {j : Nat}
    (hi : front.length = i) (hj : front.length + mid.length = j) :
    subseq (front ++ mid ++ back) i j = mid := by
  subst hi hj
  rw [subseq, List.append_assoc, List.drop_left, Nat.add_sub_cancel_left, List.take_left]

/-- Past the gate, `strip` looks at the first and at the last byte, and cuts each where it is the
framing byte of its end (R66). -/
theorem strip_framed (a z : Byte) {mid : List Byte} (h : 2 ≤ mid.length) :
    strip (a :: (mid ++ [z]))
      = subseq (a :: (mid ++ [z])) (if a = 0xF0#8 then 1 else 0)
          (mid.length + 2 - if z = 0xF7#8 then 1 else 0) := by
  have hgate : mid.length + 2 > Config.stripGate := by simp only [Config.stripGate]; omega
  simp [strip, hgate, Config.sox, Config.eox]

/-- Settles O9: a short input is `strip_short`; in a longer one each end is cut or kept, and in each
of the four cases `subseq_between` says what is left. -/
theorem stripRemovesEachEnd : Obligations.StripRemovesEachEnd := by
  unfold Obligations.StripRemovesEachEnd
  refine ⟨fun bytes h => strip_short h, fun a z mid h => ?_⟩
  rw [strip_framed a z h]
  by_cases ha : a = 0xF0#8
  · by_cases hz : z = 0xF7#8
    · simpa [ha, hz] using subseq_between [a] mid [z] 1 rfl (Nat.add_comm 1 _)
    · simpa [ha, hz] using subseq_between [a] (mid ++ [z]) [] 1 rfl (Nat.add_comm 1 _)
  · by_cases hz : z = 0xF7#8
    · simpa [ha, hz] using subseq_between [] (a :: mid) [z] 0 rfl (Nat.zero_add _)
    · simpa [ha, hz] using subseq_between [] (a :: (mid ++ [z])) [] 0 rfl (Nat.zero_add _)

/-! ### Marshalling both ways -/

/-- A packet of message type 3 is its four fields and its six slots. -/
theorem packet_eq_of_fields_slots {p q : Packet} (hmt : (unpack p.word0).mt = Config.mtSysEx7)
    (hf : unpack p.word0 = unpack q.word0) (hs : p.slots = q.slots) : p = q := by
  have hmt' : (unpack q.word0).mt = Config.mtSysEx7 := hf ▸ hmt
  simp only [Packet.slots, List.cons.injEq, and_true] at hs
  obtain ⟨h0, h1, h2, h3, h4, h5⟩ := hs
  rw [← sysExPacket_of_fields p hmt, ← sysExPacket_of_fields q hmt', hf, h0, h1, h2, h3, h4, h5]

/-- The slots are the payload padded with zeros exactly where every slot past it is zero. -/
theorem slots_eq_padded_iff (p : Packet) (n : Nat) :
    p.slots = payloadOf p n ++ List.replicate (6 - n) 0#8 ↔ ∀ b ∈ p.slots.drop n, b = 0#8 := by
  have hlen : (p.slots.drop n).length = 6 - n := by rw [List.length_drop, slots_length]
  calc
    _ ↔ p.slots.take n ++ p.slots.drop n = payloadOf p n ++ List.replicate (6 - n) 0#8 := by
      rw [List.take_append_drop]
    _ ↔ p.slots.drop n = List.replicate (6 - n) 0#8 := List.append_right_inj _
    _ ↔ _ := by rw [List.eq_replicate_iff, and_iff_right hlen]

/-- A packet taken apart by `unpack` and `payload_of` and packed again (R73). -/
def repacked (p : Packet) : Packet :=
  pack (unpack p.word0).group (unpack p.word0).status (payloadOf p (unpack p.word0).count.toNat)

/-- Packing again keeps the four fields, whatever the padding is. -/
theorem unpack_repacked {p : Packet} (hmt : (unpack p.word0).mt = Config.mtSysEx7)
    (hc : (unpack p.word0).count.toNat ≤ 6) : unpack (repacked p).word0 = unpack p.word0 := by
  rw [repacked, unpack_pack, payloadOf_length p hc, BitVec.ofNat_toNat, BitVec.setWidth_eq, ← hmt]

/-- Packing again keeps the payload and writes zeros past it. -/
theorem slots_repacked {p : Packet} (hc : (unpack p.word0).count.toNat ≤ 6) :
    (repacked p).slots = payloadOf p (unpack p.word0).count.toNat
      ++ List.replicate (6 - (unpack p.word0).count.toNat) 0#8 := by
  have hlen := payloadOf_length p hc
  rw [repacked, slots_pack _ _ _ (hlen.trans_le hc), hlen]

/-- Packing again gives the packet back exactly where its padding is zero: the fields return in any
case, so the slots decide. -/
theorem repacked_eq_iff {p : Packet} (hmt : (unpack p.word0).mt = Config.mtSysEx7)
    (hc : (unpack p.word0).count.toNat ≤ 6) :
    repacked p = p ↔ ∀ b ∈ p.slots.drop (unpack p.word0).count.toNat, b = 0#8 := by
  rw [← slots_eq_padded_iff, ← slots_repacked hc]
  exact ⟨fun h => by rw [h],
    fun h => (packet_eq_of_fields_slots hmt (unpack_repacked hmt hc).symm h).symm⟩

/-- Settles O7: what `pack` writes reads back (`unpack_pack`, `payloadOf_pack`), and the two clauses
about the other direction are the two halves of `repacked_eq_iff`. -/
theorem marshallingRoundTrip : Obligations.MarshallingRoundTrip := by
  unfold Obligations.MarshallingRoundTrip
  refine ⟨?packed, fun p hmt hc hzero => (repacked_eq_iff hmt hc).mpr hzero, ?padding⟩
  case packed =>
    intro group status chunk hlen
    have hf := unpack_pack group status chunk
    exact ⟨hf, by rw [hf, toNat_count hlen], payloadOf_pack group status chunk rfl hlen⟩
  case padding =>
    rintro p f hmt hc ⟨b, hb, hne⟩ hpack
    exact hne ((repacked_eq_iff hmt hc).mp hpack b hb)

end Sys2Proof.Machine
end

section
/-! PROOFS. SEG's commands `SEG.SETGROUP` and `SEG.SUBMIT` (R81, R82) and its four emit steps (R83 to
R86): which one the table of R87 enables, and what it leaves. -/

namespace Sys2Proof.Machine

/-! ### The end of the message, or not -/

/-- A packet that takes the last bytes ends the message (R93). -/
theorem emitted_last {g : SegState} {c : Nat} (h : g.pos + c = g.len) (status : Nibble)
    (chunk : List Byte) :
    g.emitted status c chunk
      = SegState.finished
          { g.push (pack g.grpL status chunk) with pos := g.len, first := false } := by
  simp only [SegState.emitted, h, if_true]

/-- A packet that leaves bytes behind lets the message go on (R93). -/
theorem emitted_more {g : SegState} {c : Nat} (h : g.pos + c ≠ g.len) (status : Nibble)
    (chunk : List Byte) :
    g.emitted status c chunk
      = { g.push (pack g.grpL status chunk) with pos := g.pos + c, first := false } := by
  simp only [SegState.emitted, h, if_false]

/-- With at most 6 bytes left the emit body packs all of them and ends the message (R69, R93). -/
theorem emitBody_last {s : State} (h : s.seg.Inv s.params) (hr : s.seg.remaining ≤ 6)
    (status : Nibble) :
    s.emitBody status
      = .next (s.setSeg (SegState.finished
          { s.seg.push (pack s.seg.grpL status (s.seg.buf.drop s.seg.pos)) with
            pos := s.seg.len, first := false })) := by
  have hc : countOf s.seg.remaining = s.seg.remaining := Nat.min_eq_left hr
  have hend : s.seg.pos + s.seg.remaining = s.seg.len := Nat.add_sub_cancel' h.pos_le
  have hchunk : subseq s.seg.buf s.seg.pos s.seg.len = s.seg.buf.drop s.seg.pos := by
    rw [subseq, h.len_buf, ← List.length_drop, List.take_length]
  rw [emitBody_of_inv h, hc, emitted_last hend, hend, hchunk]

/-- With more than 6 bytes left the emit body packs the next 6 and the message goes on (R69, R93). -/
theorem emitBody_more {s : State} (h : s.seg.Inv s.params) (hr : 6 < s.seg.remaining)
    (status : Nibble) :
    s.emitBody status
      = .next (s.setSeg
          { s.seg.push (pack s.seg.grpL status ((s.seg.buf.drop s.seg.pos).take 6)) with
            pos := s.seg.pos + 6, first := false }) := by
  have hc : countOf s.seg.remaining = 6 := Nat.min_eq_right hr.le
  have hgo : s.seg.pos + 6 ≠ s.seg.len := by simp only [SegState.remaining] at hr; omega
  have hchunk : subseq s.seg.buf s.seg.pos (s.seg.pos + 6) = (s.seg.buf.drop s.seg.pos).take 6 := by
    rw [subseq, Nat.add_sub_cancel_left]
  rw [emitBody_of_inv h, hc, emitted_more hgo, hchunk]

/-! ### Which of the four is enabled -/

/-- With 1 to 6 bytes left `SEG.EMIT` is `ONE` or `END` (R87). -/
theorem segEmit_of_le {s : State} (h0 : 1 ≤ s.seg.remaining) (h : s.seg.remaining ≤ 6) :
    s.segEmit = if s.seg.first then s.emitOne else s.emitEnd := by
  rw [segEmit_eq_emitBody s (Nat.ne_of_gt h0), statusOf_of_le h]
  cases s.seg.first <;> rfl

/-- With more left it is `START` or `CONT` (R87). -/
theorem segEmit_of_lt {s : State} (h : 6 < s.seg.remaining) :
    s.segEmit = if s.seg.first then s.emitStart else s.emitCont := by
  rw [segEmit_eq_emitBody s (Nat.ne_zero_of_lt h), statusOf_of_lt h]
  cases s.seg.first <;> rfl

/-! ### What is left of a running message -/

/-- A running message has a byte left (R93). -/
theorem one_le_remaining {s : State} (h : s.Inv) (hm : s.seg.mode = .run) :
    1 ≤ s.seg.remaining :=
  Nat.sub_pos_of_lt (h.seg.run_left hm)

/-- The bytes left are those of the buffer from `SEG.POS` on (R17, R18). -/
theorem length_drop_pos {s : State} (h : s.Inv) :
    (s.seg.buf.drop s.seg.pos).length = s.seg.remaining := by
  rw [List.length_drop, ← h.seg.len_buf, SegState.remaining]

/-- The next chunk is full where more than 6 bytes are left (R69). -/
theorem length_chunk {s : State} (h : s.Inv) (hr : 6 < s.seg.remaining) :
    ((s.seg.buf.drop s.seg.pos).take 6).length = 6 := by
  rw [List.length_take, length_drop_pos h, Nat.min_eq_left hr.le]

/-- The first packet of a message starts at its first byte (R19). -/
theorem pos_eq_zero {s : State} (h : s.Inv) (hm : s.seg.mode = .run) (hf : s.seg.first = true) :
    s.seg.pos = 0 :=
  (h.seg.first_iff hm).mp hf

/-! ### The four emit steps -/

/-- Settles O14: at the first packet `SEG.POS` is 0, so the bytes left are the whole payload, and
`emitBody_last` packs them. -/
theorem emitOneEffect : Obligations.EmitOneEffect := by
  unfold Obligations.EmitOneEffect
  rintro s hinv ⟨hrun, -⟩ hfirst hle
  have hpos := pos_eq_zero hinv hrun hfirst
  have hlen : s.seg.buf.length = s.seg.len := hinv.seg.len_buf.symm
  have hlen6 : s.seg.len ≤ 6 := by rwa [SegState.remaining, hpos] at hle
  have hdecode := (decode_pack s.seg.grpL s.seg.buf).1
  rw [hlen] at hdecode
  refine ⟨?kind, ?next, ⟨_, _, _, _, _, _, hdecode⟩, payloadOf_pack _ _ _ hlen hlen6⟩
  case kind => rw [segEmit_of_le (one_le_remaining hinv hrun) hle, hfirst, if_pos rfl]
  case next => rw [State.emitOne, emitBody_last hinv.seg hle, hpos, List.drop_zero]; rfl

/-- Settles O15: the next 6 bytes from `SEG.POS = 0` are the first 6, and `emitBody_more` packs
them. -/
theorem emitStartEffect : Obligations.EmitStartEffect := by
  unfold Obligations.EmitStartEffect
  rintro s hinv ⟨hrun, -⟩ hfirst hlt
  have hpos := pos_eq_zero hinv hrun hfirst
  have hlen : (s.seg.buf.take 6).length = 6 := by
    simpa only [hpos, List.drop_zero] using length_chunk hinv hlt
  obtain ⟨-, hdecode, -, -⟩ := decode_pack s.seg.grpL (s.seg.buf.take 6)
  rw [hlen] at hdecode
  refine ⟨?kind, ?next, ⟨_, _, _, _, _, _, hdecode⟩, payloadOf_pack _ _ _ hlen le_rfl⟩
  case kind => rw [segEmit_of_lt hlt, hfirst, if_pos rfl]
  case next => rw [State.emitStart, emitBody_more hinv.seg hlt, hpos, List.drop_zero]; rfl

/-- Settles O16: more than 6 bytes are left, so `emitBody_more` packs the next 6 and stops short of
`SEG.LEN`. -/
theorem emitContEffect : Obligations.EmitContEffect := by
  unfold Obligations.EmitContEffect
  rintro s hinv - hfirst hlt
  have hlen := length_chunk hinv hlt
  obtain ⟨-, -, hdecode, -⟩ := decode_pack s.seg.grpL ((s.seg.buf.drop s.seg.pos).take 6)
  rw [hlen] at hdecode
  refine ⟨?kind, ?next, ?left, ⟨_, _, _, _, _, _, hdecode⟩, payloadOf_pack _ _ _ hlen le_rfl⟩
  case kind => rw [segEmit_of_lt hlt, hfirst, if_neg Bool.false_ne_true]
  case next => rw [State.emitCont, emitBody_more hinv.seg hlt]; rfl
  case left => simp only [SegState.remaining] at hlt; omega

/-- Settles O17: at most 6 bytes are left, so `emitBody_last` packs them all; a running message has
at least one. -/
theorem emitEndEffect : Obligations.EmitEndEffect := by
  unfold Obligations.EmitEndEffect
  rintro s hinv ⟨hrun, -⟩ hfirst hle
  have hpos := one_le_remaining hinv hrun
  have hlen := length_drop_pos hinv
  obtain ⟨-, -, -, hdecode⟩ := decode_pack s.seg.grpL (s.seg.buf.drop s.seg.pos)
  rw [hlen] at hdecode
  refine ⟨?kind, ?next, hpos, ⟨_, _, _, _, _, _, hdecode⟩, payloadOf_pack _ _ _ hlen hle⟩
  case kind => rw [segEmit_of_le hpos hle, hfirst, if_neg Bool.false_ne_true]
  case next => rw [State.emitEnd, emitBody_last hinv.seg hle]; rfl

/-! ### `SEG.SUBMIT` -/

/-- The empty input is within every `MAX_LEN`. -/
@[simp] theorem within_zero (bound : Option Nat) : Params.within bound 0 = true := by
  cases bound <;> simp [Params.within]

/-- A non-empty input keeps at least one byte (R67). -/
theorem one_le_length_strip {bytes : List Byte} (h : bytes ≠ []) : 1 ≤ (strip bytes).length := by
  have hpos : 0 < bytes.length := List.length_pos_iff.mpr h
  by_cases hs : bytes.length ≤ 3
  · rwa [strip_short hs]
  · obtain ⟨-, hlow⟩ := strip_length_le bytes
    omega

/-- An idle SEG fails on the empty input (R82). -/
theorem segSubmit_empty {s : State} (hm : s.seg.mode = .idle) :
    s.segSubmit [] = .next (s.raise .emptyPayload) := by
  rcases segSubmit_cases s [] with ⟨hr, -⟩ | ⟨-, hw, -⟩ | ⟨-, -, h⟩ | ⟨-, hne, -⟩
  · cases hm.symm.trans hr
  · cases (within_zero _).symm.trans hw
  · exact h
  · exact absurd rfl hne

/-- An idle SEG takes a message of 1 to `MAX_LEN` bytes (R82). -/
theorem segSubmit_legal {s : State} {bytes : List Byte} (hm : s.seg.mode = .idle)
    (hne : bytes ≠ []) (hw : Params.within s.params.maxLen bytes.length = true) :
    s.segSubmit bytes = .next (s.setSeg (s.seg.accepted bytes)) := by
  rcases segSubmit_cases s bytes with ⟨hr, -⟩ | ⟨-, hl, -⟩ | ⟨-, he, -⟩ | ⟨-, -, -, h⟩
  · cases hm.symm.trans hr
  · cases hw.symm.trans hl
  · exact absurd he hne
  · exact h

/-- An idle SEG refuses a message longer than `MAX_LEN` (R82, D5). -/
theorem segSubmit_too_long {s : State} {bytes : List Byte} (hm : s.seg.mode = .idle)
    (hl : Params.within s.params.maxLen bytes.length = false) :
    s.segSubmit bytes = .refused .segMessageTooLong := by
  rcases segSubmit_cases s bytes with ⟨hr, -⟩ | ⟨-, -, h⟩ | ⟨-, rfl, -⟩ | ⟨-, -, hw, -⟩
  · cases hm.symm.trans hr
  · exact h
  · cases (within_zero _).symm.trans hl
  · cases hw.symm.trans hl

/-- A submission is held exactly while a message runs (R91). -/
theorem held_submit (s : State) (bytes : List Byte) :
    s.held (.submit bytes) = true ↔ s.seg.mode = .run := by
  simp only [State.held, beq_iff_eq]

/-- Settles O13: one lemma per case of the command; the states written out are those of `State.raise`
and `SegState.accepted`. -/
theorem submitEffect : Obligations.SubmitEffect := by
  unfold Obligations.SubmitEffect
  intro s bytes
  refine ⟨(held_submit s bytes).mpr, ?idle, ?empty, ?legal, segSubmit_too_long⟩
  case idle =>
    intro hm
    simp only [State.held, hm]; rfl
  case empty =>
    rintro hm rfl
    exact segSubmit_empty hm
  case legal =>
    intro hm hne hw
    exact ⟨segSubmit_legal hm hne hw, one_le_length_strip hne⟩

/-! ### `SEG.SETGROUP` -/

/-- A packet carries `SEG.GRP_L`, so an emit and a change of `SEG.GROUP` commute (R16, R81). -/
theorem emitted_setGroup (g : SegState) (group status : Nibble) (c : Nat) (chunk : List Byte) :
    ({ g with group := group } : SegState).emitted status c chunk
      = { g.emitted status c chunk with group := group } := by
  by_cases h : g.pos + c = g.len
  · rw [emitted_last h, emitted_last (g := { g with group := group }) h]; rfl
  · rw [emitted_more h, emitted_more (g := { g with group := group }) h]; rfl

/-- `SEG.EMIT` packs the chunk it reads (R87, R93). -/
theorem segEmit_of_read {s : State} {chunk : List Byte} (h : s.seg.remaining ≠ 0)
    (hread : s.memRead s.seg.pos (countOf s.seg.remaining) = some chunk) :
    s.segEmit = .next (s.setSeg (s.seg.emitted (statusOf s.seg.first s.seg.remaining)
      (countOf s.seg.remaining) chunk)) := by
  rw [segEmit_eq_emitBody s h]
  simp only [State.emitBody, hread]

/-- An emit that answers a next state answers the same under another `SEG.GROUP`, the group apart: it
reads the same chunk. -/
theorem segEmit_segSetGroup {s t : State} (h : s.segEmit = .next t) (group : Nibble) :
    (s.segSetGroup group).segEmit = .next (t.segSetGroup group) := by
  rcases segEmit_cases s with ⟨chunk, hread, hr, he⟩ | ⟨r, hf⟩
  · cases he.symm.trans h
    have he' := segEmit_of_read (s := s.segSetGroup group) hr hread
    rwa [State.segSetGroup_seg, emitted_setGroup] at he'
  · cases hf.symm.trans h

/-- Settles O12: the command writes the one field; `segEmit_segSetGroup` for the running message, and
an accepted message latches `SEG.GROUP`. -/
theorem setGroupEffect : Obligations.SetGroupEffect := by
  unfold Obligations.SetGroupEffect
  refine ⟨fun s g => ⟨rfl, rfl, fun t h => segEmit_segSetGroup h g⟩, ?next, rfl⟩
  case next =>
    intro s g bytes hm hne hw
    exact ⟨_, segSubmit_legal (s := s.segSetGroup g) hm hne hw, rfl⟩

end Sys2Proof.Machine
end

section
/-! PROOFS. The two whole functions against each other (R114): what `decode` does with one packed
packet, which packet `segment` packs next, and the induction over the packets of a message. -/

namespace Sys2Proof.Machine

/-! ### `decode` on one packed packet -/

/-- The packet that ends a message, `one` with no run open and `end` inside a run, hands over its
chunk and closes the message (R113). -/
theorem decodeLoop_pack_last {chunk : List Byte} (h : chunk.length ≤ 6) (group : Nibble)
    (acc : List Byte) (bounds : List Nat) (isFirst : Bool) (ps : List Packet) :
    decodeLoop acc bounds (!isFirst) (pack group (if isFirst then 0#4 else 3#4) chunk :: ps)
      = decodeLoop (acc ++ chunk) (bounds ++ [(acc ++ chunk).length]) false ps := by
  have hpay := fun status => payloadOf_pack group status chunk rfl h
  cases isFirst <;> simp [decodeLoop, toNat_count h, h, hpay]

/-- A packet that more follow, `start` with no run open and `continue` inside a run, hands over its
chunk and leaves the run open (R113). -/
theorem decodeLoop_pack_more {chunk : List Byte} (h : chunk.length ≤ 6) (group : Nibble)
    (acc : List Byte) (bounds : List Nat) (isFirst : Bool) (ps : List Packet) :
    decodeLoop acc bounds (!isFirst) (pack group (if isFirst then 1#4 else 2#4) chunk :: ps)
      = decodeLoop (acc ++ chunk) bounds true ps := by
  have hpay := fun status => payloadOf_pack group status chunk rfl h
  cases isFirst <;> simp [decodeLoop, toNat_count h, h, hpay]

/-! ### Which packet `segment` packs next -/

/-- Past the end of the payload `segment` packs nothing (R89). -/
theorem segmentLoop_done (group : Nibble) {p : List Byte} {pos : Nat} (h : p.length ≤ pos)
    (fuel : Nat) (isFirst : Bool) : segmentLoop group p fuel pos isFirst = [] := by
  cases fuel with
  | zero => rfl
  | succ fuel => rw [segmentLoop, if_neg (Nat.not_lt.mpr h)]

/-- With 1 to 6 bytes left `segment` packs all of them and is done (R89). -/
theorem segmentLoop_last (group : Nibble) {p : List Byte} {pos : Nat} (hlt : pos < p.length)
    (hle : p.length - pos ≤ 6) (fuel : Nat) (isFirst : Bool) :
    segmentLoop group p (fuel + 1) pos isFirst
      = [pack group (if isFirst then 0#4 else 3#4) (subseq p pos p.length)] := by
  have hend : pos + (p.length - pos) = p.length := Nat.add_sub_cancel' hlt.le
  simp only [segmentLoop, if_pos hlt, Nat.min_eq_left hle, hend, statusOf_of_le hle,
    segmentLoop_done group le_rfl]

/-- With more left `segment` packs the next 6 bytes and goes on (R89). -/
theorem segmentLoop_more (group : Nibble) {p : List Byte} {pos : Nat} (h : 6 < p.length - pos)
    (fuel : Nat) (isFirst : Bool) :
    segmentLoop group p (fuel + 1) pos isFirst
      = pack group (if isFirst then 1#4 else 2#4) (subseq p pos (pos + 6))
        :: segmentLoop group p fuel (pos + 6) false := by
  have hlt : pos < p.length := by omega
  simp only [segmentLoop, if_pos hlt, Nat.min_eq_right h.le, statusOf_of_lt h]

/-- `segment` of a non-empty message packs the stripped message from its first byte (R89). -/
theorem segment_of_ne_nil {bytes : List Byte} (h : bytes ≠ []) (group : Nibble) :
    segment group bytes
      = .ok (segmentLoop group (strip bytes) (strip bytes).length 0 true) := by
  rw [segment, if_neg (mt List.isEmpty_iff.mp h)]

/-! ### A segmented message decoded -/

/-- `decode`, having recovered the first `pos` bytes of `p`, recovers the rest from the packets
`segment` still packs, as one message: a run is open between the two exactly where the next packet is
not the first. -/
theorem decodeLoop_segmentLoop (group : Nibble) (p : List Byte) (fuel : Nat) {pos : Nat}
    (hlt : pos < p.length) (hfuel : p.length ≤ pos + fuel) (isFirst : Bool) :
    decodeLoop (subseq p 0 pos) [] (!isFirst) (segmentLoop group p fuel pos isFirst)
      = .ok (p, [p.length]) := by
  induction fuel generalizing pos isFirst with
  | zero => omega
  | succ fuel ih =>
    by_cases hle : p.length - pos ≤ 6
    · have hchunk : (subseq p pos p.length).length ≤ 6 := by rwa [subseq_length p le_rfl]
      rw [segmentLoop_last group hlt hle, decodeLoop_pack_last hchunk,
        subseq_append p (Nat.zero_le pos) hlt.le, subseq_all]
      rfl
    · have hgt : 6 < p.length - pos := Nat.lt_of_not_le hle
      have hchunk : (subseq p pos (pos + 6)).length ≤ 6 := by
        rw [subseq_length p (by omega), Nat.add_sub_cancel_left]
      rw [segmentLoop_more group hgt, decodeLoop_pack_more hchunk,
        subseq_append p (Nat.zero_le pos) (Nat.le_add_right pos 6)]
      exact ih (by omega) (by omega) false

/-- Settles O36: `decodeLoop_segmentLoop` from the first byte on; the stripped message has one, as the
message is not empty. -/
theorem decodeOfSegment : Obligations.DecodeOfSegment := by
  unfold Obligations.DecodeOfSegment
  intro group bytes hne
  exact ⟨_, segment_of_ne_nil hne group,
    decodeLoop_segmentLoop group (strip bytes) _ (one_le_length_strip hne) (Nat.zero_add _).ge true⟩

end Sys2Proof.Machine
end

section
/-! PROOFS. What DEC does with each packet of a call it looks at (R104 to R110): the packet fails the
call, or its valid bytes are taken; and which of the two, kind by kind. -/

namespace Sys2Proof.Machine

/-! ### A packet that is looked at -/

/-- The state in which a packet's own meaning starts: the packet counted, its upper half recorded
(R102). -/
def State.lookedAt (s : State) (i : Instr) : State :=
  s.setDec (s.dec.counted.recorded (headOfInstr i))

/-- A packet that is looked at runs its own meaning from there (R102). -/
theorem exec_of_examines {s : State} (h : s.examines) (i : Instr) :
    exec i s = .next (bodyOfInstr i (s.lookedAt i)) := by
  rw [exec_eq_takePacket, takePacket_examined h, State.lookedAt]

/-- A packet whose meaning is to fail the call with an error of DEC leaves the call failed at it
(R102, R129). -/
theorem exec_of_raise {s : State} (h : s.examines) {i : Instr} {e : ErrKind}
    (he : e ≠ .emptyPayload) (hbody : bodyOfInstr i (s.lookedAt i) = (s.lookedAt i).raise e) :
    exec i s = .next { s with dec := s.dec.failedAt (headOfInstr i) e } := by
  rw [exec_of_examines h, hbody]
  cases e with
  | emptyPayload => exact absurd rfl he
  | _ => rfl

/-! ### The two tests before the status -/

/-- A foreign packet, which has no byte-count, fails the call whatever it holds (R104). -/
theorem exec_foreign {s : State} (h : s.examines) {i : Instr} (hi : i.count? = none) :
    exec i s
      = .next { s with dec :=
          s.dec.failedAt (upperHalf (encode i).word0) .unsupportedMessageType } := by
  rw [← headOfInstr_eq]
  refine exec_of_raise h (by decide) ?_
  cases i with
  | notSx7Mt0to1 | notSx7Mt2 | notSx7Mt4to7 | notSx7Mt8to15 => rfl
  | _ => cases hi

/-- A byte-count above 6 fails the call before the status is looked at (R110). -/
theorem exec_bad_count {s : State} (h : s.examines) {i : Instr} {n : Nat}
    (hi : i.count? = some n) (hn : 6 < n) :
    exec i s = .next { s with dec := s.dec.failedAt (headOfInstr i) .invalidByteCount } := by
  refine exec_of_raise h (by decide) ?_
  cases i with
  | notSx7Mt0to1 | notSx7Mt2 | notSx7Mt4to7 | notSx7Mt8to15 => cases hi
  | _ => cases hi; rw [bodyOfInstr, checkCount_bad hn]

/-- Settles O31: the four rows are those without a byte-count. -/
theorem foreignPacketEffect : Obligations.ForeignPacketEffect := by
  unfold Obligations.ForeignPacketEffect
  intro mt rest word1 s h
  exact ⟨exec_foreign h rfl, exec_foreign h rfl, exec_foreign h rfl, exec_foreign h rfl⟩

/-- Settles O30: the six rows are those with a byte-count. -/
theorem byteCountEffect : Obligations.ByteCountEffect := by
  unfold Obligations.ByteCountEffect
  intro status group count b0 b1 b2 b3 b4 b5 s h hc
  exact ⟨exec_bad_count h rfl hc, exec_bad_count h rfl hc, exec_bad_count h rfl hc,
    exec_bad_count h rfl hc, exec_bad_count h rfl hc, exec_bad_count h rfl hc⟩

/-! ### The status against `DEC.INRUN` -/

/-- A whole message with no run open is appended and closed (R105). -/
theorem acceptOne_closed {s : State} (h : s.dec.inrun = false) (count : Nibble) (bytes : List Byte) :
    s.acceptOne count bytes
      = s.setDec ((s.dec.memWrite bytes).closeAt (s.dec.acc.length + count.toNat)) :=
  if_neg (ne_true_of_eq_false h)

/-- A whole message inside a run is in neither pattern of the grammar (R105). -/
theorem acceptOne_inrun {s : State} (h : s.dec.inrun = true) (count : Nibble) (bytes : List Byte) :
    s.acceptOne count bytes = s.raise .malformedRun :=
  if_pos h

/-- A `start` with no run open is appended and opens one (R106). -/
theorem acceptStart_closed {s : State} (h : s.dec.inrun = false) (bytes : List Byte) :
    s.acceptStart bytes = s.setDec { s.dec.memWrite bytes with inrun := true } :=
  if_neg (ne_true_of_eq_false h)

/-- A `start` inside a run is not in the grammar (R106). -/
theorem acceptStart_inrun {s : State} (h : s.dec.inrun = true) (bytes : List Byte) :
    s.acceptStart bytes = s.raise .malformedRun :=
  if_pos h

/-- A `continue` inside a run is appended (R107). -/
theorem acceptCont_inrun {s : State} (h : s.dec.inrun = true) (bytes : List Byte) :
    s.acceptCont bytes = s.setDec (s.dec.memWrite bytes) :=
  if_pos h

/-- A `continue` needs a `start` before it (R107). -/
theorem acceptCont_closed {s : State} (h : s.dec.inrun = false) (bytes : List Byte) :
    s.acceptCont bytes = s.raise .malformedRun :=
  if_neg (ne_true_of_eq_false h)

/-- An `end` inside a run is appended and closes message and run (R108). -/
theorem acceptEnd_inrun {s : State} (h : s.dec.inrun = true) (count : Nibble) (bytes : List Byte) :
    s.acceptEnd count bytes
      = s.setDec { (s.dec.memWrite bytes).closeAt (s.dec.acc.length + count.toNat) with
          inrun := false } :=
  if_pos h

/-- An `end` needs a `start` before it (R108). -/
theorem acceptEnd_closed {s : State} (h : s.dec.inrun = false) (count : Nibble) (bytes : List Byte) :
    s.acceptEnd count bytes = s.raise .malformedRun :=
  if_neg (ne_true_of_eq_false h)

/-- Settles O25: the count is legal, so the body is `State.acceptOne`, and `DEC.INRUN` decides. -/
theorem onePacketEffect : Obligations.OnePacketEffect := by
  unfold Obligations.OnePacketEffect
  intro group count b0 b1 b2 b3 b4 b5 s h hc
  refine ⟨fun hr => ?taken, fun hr => exec_of_raise h (by decide) ?failed⟩
  case taken =>
    rw [exec_of_examines h, bodyOfInstr, checkCount_good hc, acceptOne_closed (s := s.lookedAt _) hr]; rfl
  case failed => rw [bodyOfInstr, checkCount_good hc, acceptOne_inrun (s := s.lookedAt _) hr]

/-- Settles O26: the count is legal, so the body is `State.acceptStart`, and `DEC.INRUN` decides. -/
theorem startPacketEffect : Obligations.StartPacketEffect := by
  unfold Obligations.StartPacketEffect
  intro group count b0 b1 b2 b3 b4 b5 s h hc
  refine ⟨fun hr => ?taken, fun hr => exec_of_raise h (by decide) ?failed⟩
  case taken =>
    rw [exec_of_examines h, bodyOfInstr, checkCount_good hc, acceptStart_closed (s := s.lookedAt _) hr]; rfl
  case failed => rw [bodyOfInstr, checkCount_good hc, acceptStart_inrun (s := s.lookedAt _) hr]

/-- Settles O27: the count is legal, so the body is `State.acceptCont`, and `DEC.INRUN` decides. -/
theorem contPacketEffect : Obligations.ContPacketEffect := by
  unfold Obligations.ContPacketEffect
  intro group count b0 b1 b2 b3 b4 b5 s h hc
  refine ⟨fun hr => ?taken, fun hr => exec_of_raise h (by decide) ?failed⟩
  case taken =>
    rw [exec_of_examines h, bodyOfInstr, checkCount_good hc, acceptCont_inrun (s := s.lookedAt _) hr]; rfl
  case failed => rw [bodyOfInstr, checkCount_good hc, acceptCont_closed (s := s.lookedAt _) hr]

/-- Settles O28: the count is legal, so the body is `State.acceptEnd`, and `DEC.INRUN` decides. -/
theorem endPacketEffect : Obligations.EndPacketEffect := by
  unfold Obligations.EndPacketEffect
  intro group count b0 b1 b2 b3 b4 b5 s h hc
  refine ⟨fun hr => ?taken, fun hr => exec_of_raise h (by decide) ?failed⟩
  case taken =>
    rw [exec_of_examines h, bodyOfInstr, checkCount_good hc, acceptEnd_inrun (s := s.lookedAt _) hr]; rfl
  case failed => rw [bodyOfInstr, checkCount_good hc, acceptEnd_closed (s := s.lookedAt _) hr]

/-- Settles O29: past the byte-count test a reserved status fails the call, without a look at
`DEC.INRUN`. -/
theorem reservedStatusEffect : Obligations.ReservedStatusEffect := by
  unfold Obligations.ReservedStatusEffect
  intro status group count b0 b1 b2 b3 b4 b5 s h hc
  refine ⟨exec_of_raise h (by decide) ?low, exec_of_raise h (by decide) ?high⟩
  case low => rw [bodyOfInstr, checkCount_good hc]
  case high => rw [bodyOfInstr, checkCount_good hc]

end Sys2Proof.Machine
end

section
/-! PROOFS. How a call is opened and closed (R101, R112), what DEC refuses (R115), and that the result
of a call stays until the next one. -/

namespace Sys2Proof.Machine

/-! ### `DEC.BEGIN` and the refusals -/

/-- With DEC idle `DEC.BEGIN` opens a fresh call (R101). -/
theorem decBegin_of_idle {s : State} (h : s.dec.mode = .idle) :
    s.decBegin = .next (s.setDec DecState.fresh) := by
  rcases decBegin_cases s with ⟨ho, -⟩ | ⟨-, he⟩
  · cases h.symm.trans ho
  · exact he

/-- While a call is open `DEC.BEGIN` is refused (R115). -/
theorem decBegin_of_opened {s : State} (h : s.dec.mode = .opened) :
    s.decBegin = .refused .decAlreadyOpen := by
  rcases decBegin_cases s with ⟨-, he⟩ | ⟨hi, -⟩
  · exact he
  · cases h.symm.trans hi

/-- With no call open `DEC.END` is refused (R115). -/
theorem decEnd_of_idle {s : State} (h : s.dec.mode = .idle) :
    s.decEnd = .refused .decEndNotOpen := by
  rcases decEnd_cases s with ⟨-, he⟩ | ⟨ho, -⟩
  · exact he
  · cases h.symm.trans ho

/-- With no call open every packet is refused (R115). -/
theorem exec_of_idle {s : State} (h : s.dec.mode = .idle) (i : Instr) :
    exec i s = .refused .decPktNotOpen := by
  rw [exec_eq_takePacket, takePacket_idle h]

/-- A bound has been reached by itself. -/
theorem reached_self (n : Nat) : Params.reached (some n) n = true :=
  decide_eq_true le_rfl

/-- A call that has taken `MAX_PKTS` packets refuses every other one (R115). -/
theorem exec_of_full {s : State} (h : s.dec.mode = .opened)
    (hf : s.params.maxPkts = some s.dec.npkt) (i : Instr) : exec i s = .refused .decCallFull := by
  have hreached : Params.reached s.params.maxPkts s.dec.npkt = true := hf ▸ reached_self s.dec.npkt
  rw [exec_eq_takePacket, takePacket_full h hreached]

/-- Settles O24: the fresh call is the state written out. -/
theorem beginOpensFreshCall : Obligations.BeginOpensFreshCall := by
  unfold Obligations.BeginOpensFreshCall
  exact fun s => ⟨decBegin_of_idle, decBegin_of_opened⟩

/-- Settles O33: one lemma per refusal; a command of DEC is never held, by `State.held`. -/
theorem decoderRefusals : Obligations.DecoderRefusals := by
  unfold Obligations.DecoderRefusals
  exact ⟨fun i s => ⟨fun h => exec_of_idle h i, fun h hf => exec_of_full h hf i⟩,
    fun s => ⟨decEnd_of_idle, decBegin_of_opened, rfl, rfl, fun p => rfl⟩⟩

/-! ### `DEC.END` -/

/-- `DEC.END` closes an open call and returns its outcome (R112). -/
theorem decEnd_of_opened {s : State} (h : s.dec.mode = .opened) :
    s.decEnd = .next ((s.setDec s.dec.closed).answer s.dec.closed.outcome) := by
  rcases decEnd_cases s with ⟨hi, -⟩ | ⟨-, he⟩
  · cases h.symm.trans hi
  · exact he

/-- An open run of a good call fails the call at its end (R112). -/
theorem closed_of_open_run {d : DecState} (he : d.err = none) (hr : d.inrun = true) :
    d.closed = (d.raise .malformedRun).ended := by
  simp only [DecState.closed, he, hr, Option.isNone_none, Bool.and_self, if_true]

/-- With no run open the end of a call changes none of its data (R112). -/
theorem closed_of_no_run {d : DecState} (hr : d.inrun = false) : d.closed = d.ended := by
  simp only [DecState.closed, hr, Bool.and_false, Bool.false_eq_true, if_false]

/-- Nor does it where the call has failed before: an open run is not reported on top (R112). -/
theorem closed_of_failed {d : DecState} {e : ErrKind} (he : d.err = some e) :
    d.closed = d.ended := by
  simp only [DecState.closed, he, Option.isNone_some, Bool.false_and, Bool.false_eq_true, if_false]

/-- A call without an error returns its messages (R112). -/
theorem outcome_of_good {d : DecState} (he : d.err = none) : d.outcome = .decOk d.acc d.bounds := by
  simp only [DecState.outcome, he]

/-- A failed call returns its error (R112). -/
theorem outcome_of_failed {d : DecState} {e : ErrKind} (he : d.err = some e) :
    d.outcome = .decErr e := by
  simp only [DecState.outcome, he]

/-- DEC is idle after the end of a call (R112). -/
theorem closed_mode (d : DecState) : d.closed.mode = .idle := by
  unfold DecState.closed
  split <;> rfl

/-! ### The result stays -/

/-- A submission leaves DEC as it is (R13). -/
theorem segSubmit_dec {s t : State} {bytes : List Byte} (h : s.segSubmit bytes = .next t) :
    t.dec = s.dec := by
  rcases segSubmit_cases s bytes with ⟨-, he⟩ | ⟨-, -, he⟩ | ⟨-, -, he⟩ | ⟨-, -, -, he⟩ <;>
    cases he.symm.trans h <;> rfl

/-- A pop leaves DEC as it is (R13). -/
theorem segPop_dec {s t : State} (h : s.segPop = .next t) : t.dec = s.dec := by
  rcases segPop_cases s with ⟨-, he⟩ | ⟨p, rest, -, he⟩ <;> cases he.symm.trans h <;> rfl

/-- While no call is open only `DEC.BEGIN` and the reset change DEC (R112): the other commands of DEC
are refused, and those of SEG and the register reads do not write it. -/
theorem command_dec_of_idle {s t : State} {c : HostCmd} (hm : s.dec.mode = .idle)
    (hb : c ≠ .decBegin) (hr : c ≠ .reset) (h : s.command c = .next t) : t.dec = s.dec := by
  cases c with
  | setGroup group => cases h; rfl
  | submit bytes => exact segSubmit_dec h
  | pop => exact segPop_dec h
  | decBegin => exact absurd rfl hb
  | decPkt p => cases (exec_of_idle hm (decode p)).symm.trans h
  | decEnd => cases (decEnd_of_idle hm).symm.trans h
  | readReg r =>
    cases h
    obtain ⟨-, hdec, -⟩ := readReg_frame s r
    exact hdec
  | reset => exact absurd rfl hr

/-- Settles O34: the three ends of a call by what `DecState.closed` is in each, and
`command_dec_of_idle` for what comes after. -/
theorem endOfCallEffect : Obligations.EndOfCallEffect := by
  unfold Obligations.EndOfCallEffect
  intro s hm
  have hend : s.command .decEnd = _ := decEnd_of_opened hm
  refine ⟨?good, ?openRun, ?failed, ?stays⟩
  case good =>
    intro he hr
    rw [hend, closed_of_no_run hr, outcome_of_good (d := s.dec.ended) he]; rfl
  case openRun =>
    intro he hr
    rw [hend, closed_of_open_run he hr, outcome_of_failed (d := (s.dec.raise _).ended) rfl]; rfl
  case failed =>
    intro e he
    rw [hend, closed_of_failed he, outcome_of_failed (d := s.dec.ended) he]; rfl
  case stays =>
    intro t u c ht hb hr hu
    cases hend.symm.trans ht
    exact command_dec_of_idle (closed_mode s.dec) hb hr hu

end Sys2Proof.Machine
end

section
/-! PROOFS. The decoder and the encoder against each other (O1, O2), and the opcode table as a
partition of all packets (O3): a packet of message type 3 is read by its status, any other by its
message type. -/

namespace Sys2Proof

/-! ### The decoder's two branches -/

/-- The row a packet of message type 3 has by its status (R53, R55). -/
def sysExInstr (status group count : Nibble) (b0 b1 b2 b3 b4 b5 : Byte) : Instr :=
  if status = 0#4 then .sx7One group count b0 b1 b2 b3 b4 b5
  else if status = 1#4 then .sx7Start group count b0 b1 b2 b3 b4 b5
  else if status = 2#4 then .sx7Cont group count b0 b1 b2 b3 b4 b5
  else if status = 3#4 then .sx7End group count b0 b1 b2 b3 b4 b5
  else if status.toNat ≤ 7 then .sx7RsvdSt4to7 status group count b0 b1 b2 b3 b4 b5
  else .sx7RsvdSt8to15 status group count b0 b1 b2 b3 b4 b5

/-- The row a packet of another message type has by that type (R54). -/
def foreignInstr (mt : Nibble) (rest : BitVec 28) (word1 : Word) : Instr :=
  if mt.toNat ≤ 1 then .notSx7Mt0to1 mt rest word1
  else if mt.toNat ≤ 2 then .notSx7Mt2 mt rest word1
  else if mt.toNat ≤ 7 then .notSx7Mt4to7 mt rest word1
  else .notSx7Mt8to15 mt rest word1

/-- A packet of message type 3 is decoded by its status. -/
theorem decode_of_sysEx {p : Packet} (h : (unpack p.word0).mt = Config.mtSysEx7) :
    decode p = sysExInstr (unpack p.word0).status (unpack p.word0).group (unpack p.word0).count
      (p.slot 0) (p.slot 1) (p.slot 2) (p.slot 3) (p.slot 4) (p.slot 5) :=
  if_pos h

/-- A packet of another message type is decoded by that type. -/
theorem decode_of_foreign {p : Packet} (h : (unpack p.word0).mt ≠ Config.mtSysEx7) :
    decode p = foreignInstr (unpack p.word0).mt (p.word0.extractLsb' 0 28) p.word1 :=
  if_neg h

/-- Decoding the words laid out for message type 3 finds the row of the status. -/
theorem decode_sysExPacket (group status count : Nibble) (b0 b1 b2 b3 b4 b5 : Byte) :
    decode (sysExPacket group status count b0 b1 b2 b3 b4 b5)
      = sysExInstr status group count b0 b1 b2 b3 b4 b5 := by
  have hslots := slots_sysExPacket group status count b0 b1 b2 b3 b4 b5
  simp only [Packet.slots, List.cons.injEq, and_true] at hslots
  obtain ⟨h0, h1, h2, h3, h4, h5⟩ := hslots
  rw [decode_of_sysEx (by rw [unpack_sysExPacket]), unpack_sysExPacket, h0, h1, h2, h3, h4, h5]

/-- Decoding the words laid out for another message type finds the row of that type. -/
theorem decode_foreignPacket {mt : Nibble} (h : mt ≠ Config.mtSysEx7) (rest : BitVec 28)
    (word1 : Word) : decode (foreignPacket mt rest word1) = foreignInstr mt rest word1 := by
  have hmt := unpack_foreignPacket_mt mt rest word1
  rw [decode_of_foreign (by rwa [hmt]), hmt, rest_foreignPacket]
  rfl

/-! ### From instructions to packets and back -/

/-- Every row of message type 3 is laid out from the same fields and slots (R46, R47). -/
theorem encode_sysExInstr (status group count : Nibble) (b0 b1 b2 b3 b4 b5 : Byte) :
    encode (sysExInstr status group count b0 b1 b2 b3 b4 b5)
      = sysExPacket group status count b0 b1 b2 b3 b4 b5 := by
  unfold sysExInstr
  split_ifs <;> simp only [encode, *]

/-- Every foreign row is laid out from the message type and what follows it (R54). -/
theorem encode_foreignInstr (mt : Nibble) (rest : BitVec 28) (word1 : Word) :
    encode (foreignInstr mt rest word1) = foreignPacket mt rest word1 := by
  unfold foreignInstr
  split_ifs <;> rfl

/-- The row of a status has that status in its range. -/
theorem wellFormed_sysExInstr (status group count : Nibble) (b0 b1 b2 b3 b4 b5 : Byte) :
    (sysExInstr status group count b0 b1 b2 b3 b4 b5).wellFormed = true := by
  have hrange : ∀ n : Nibble, n ≠ 0#4 → n ≠ 1#4 → n ≠ 2#4 → n ≠ 3#4 → 4 ≤ n.toNat := by decide
  unfold sysExInstr
  split_ifs with h0 h1 h2 h3 h7
  case pos => rfl
  case pos => rfl
  case pos => rfl
  case pos => rfl
  case pos => simpa [Instr.wellFormed, h7] using hrange status h0 h1 h2 h3
  case neg => exact decide_eq_true (Nat.lt_of_not_le h7)

/-- The row of a message type other than 3 has that type in its range. -/
theorem wellFormed_foreignInstr {mt : Nibble} (h : mt ≠ Config.mtSysEx7) (rest : BitVec 28)
    (word1 : Word) : (foreignInstr mt rest word1).wellFormed = true := by
  have h3 : mt.toNat ≠ 3 := fun e => h (BitVec.eq_of_toNat_eq e)
  unfold foreignInstr
  split_ifs with h1 h2 h7 <;> simp only [Instr.wellFormed, Bool.and_eq_true, beq_iff_eq,
    decide_eq_true_eq] <;> omega

/-- A status in the range 4 to 7 is that row's own. -/
theorem sysExInstr_low_reserved {status : Nibble} (h : 4 ≤ status.toNat ∧ status.toNat ≤ 7)
    (group count : Nibble) (b0 b1 b2 b3 b4 b5 : Byte) :
    sysExInstr status group count b0 b1 b2 b3 b4 b5
      = .sx7RsvdSt4to7 status group count b0 b1 b2 b3 b4 b5 := by
  have hne : ∀ n : Nibble, 4 ≤ n.toNat → n ≠ 0#4 ∧ n ≠ 1#4 ∧ n ≠ 2#4 ∧ n ≠ 3#4 := by decide
  obtain ⟨h0, h1, h2, h3⟩ := hne status h.1
  rw [sysExInstr, if_neg h0, if_neg h1, if_neg h2, if_neg h3, if_pos h.2]

/-- A status from 8 on is that row's own. -/
theorem sysExInstr_high_reserved {status : Nibble} (h : 8 ≤ status.toNat)
    (group count : Nibble) (b0 b1 b2 b3 b4 b5 : Byte) :
    sysExInstr status group count b0 b1 b2 b3 b4 b5
      = .sx7RsvdSt8to15 status group count b0 b1 b2 b3 b4 b5 := by
  have hne : ∀ n : Nibble, 8 ≤ n.toNat →
      n ≠ 0#4 ∧ n ≠ 1#4 ∧ n ≠ 2#4 ∧ n ≠ 3#4 ∧ ¬ n.toNat ≤ 7 := by decide
  obtain ⟨h0, h1, h2, h3, h7⟩ := hne status h
  rw [sysExInstr, if_neg h0, if_neg h1, if_neg h2, if_neg h3, if_neg h7]

/-- A foreign packet whose message type is not 3 decodes to any instruction its type selects. -/
theorem decode_foreignPacket_of_range {mt : Nibble} {rest : BitVec 28} {word1 : Word} {i : Instr}
    (h3 : mt.toNat ≠ 3) (hi : foreignInstr mt rest word1 = i) :
    decode (foreignPacket mt rest word1) = i := by
  rw [decode_foreignPacket (fun e => h3 (congrArg BitVec.toNat e)), hi]

/-- Settles O1, row by row: the six rows of message type 3 come back by their status, the four
foreign ones by their message type, each within the range well-formedness gives it. -/
theorem decodeEncodeRoundTrip : Obligations.DecodeEncodeRoundTrip := by
  unfold Obligations.DecodeEncodeRoundTrip
  intro i h
  cases i with
  | sx7One group count => exact decode_sysExPacket group 0#4 count ..
  | sx7Start group count => exact decode_sysExPacket group 1#4 count ..
  | sx7Cont group count => exact decode_sysExPacket group 2#4 count ..
  | sx7End group count => exact decode_sysExPacket group 3#4 count ..
  | sx7RsvdSt4to7 status group count =>
    have hrange : 4 ≤ status.toNat ∧ status.toNat ≤ 7 := by simpa [Instr.wellFormed] using h
    exact (decode_sysExPacket group status count ..).trans (sysExInstr_low_reserved hrange ..)
  | sx7RsvdSt8to15 status group count =>
    have hrange : 8 ≤ status.toNat := by simpa [Instr.wellFormed] using h
    exact (decode_sysExPacket group status count ..).trans (sysExInstr_high_reserved hrange ..)
  | notSx7Mt0to1 mt rest word1 =>
    have hrange : mt.toNat ≤ 1 := by simpa [Instr.wellFormed] using h
    exact decode_foreignPacket_of_range (by omega) (if_pos hrange)
  | notSx7Mt2 mt rest word1 =>
    have hrange : mt.toNat = 2 := by simpa [Instr.wellFormed] using h
    exact decode_foreignPacket_of_range (by omega) (by simp [foreignInstr, hrange])
  | notSx7Mt4to7 mt rest word1 =>
    have hrange : 4 ≤ mt.toNat ∧ mt.toNat ≤ 7 := by simpa [Instr.wellFormed] using h
    refine decode_foreignPacket_of_range (by omega) ?_
    rw [foreignInstr, if_neg (by omega), if_neg (by omega), if_pos hrange.2]
  | notSx7Mt8to15 mt rest word1 =>
    have hrange : 8 ≤ mt.toNat := by simpa [Instr.wellFormed] using h
    refine decode_foreignPacket_of_range (by omega) ?_
    rw [foreignInstr, if_neg (by omega), if_neg (by omega), if_neg (by omega)]

/-- What is decoded lies in the range of its row. -/
theorem wellFormed_decode (p : Packet) : (decode p).wellFormed = true := by
  by_cases h : (unpack p.word0).mt = Config.mtSysEx7
  · rw [decode_of_sysEx h]; exact wellFormed_sysExInstr ..
  · rw [decode_of_foreign h]; exact wellFormed_foreignInstr h ..

/-- The decoder drops no bit of a packet. -/
theorem encode_decode (p : Packet) : encode (decode p) = p := by
  by_cases h : (unpack p.word0).mt = Config.mtSysEx7
  · rw [decode_of_sysEx h, encode_sysExInstr, sysExPacket_of_fields p h]
  · rw [decode_of_foreign h, encode_foreignInstr, foreignPacket_of_fields]

/-- Settles O2: `wellFormed_decode` and `encode_decode`, each on the two branches of the decoder. -/
theorem encodeDecodeRoundTrip : Obligations.EncodeDecodeRoundTrip := by
  unfold Obligations.EncodeDecodeRoundTrip
  exact fun p => ⟨wellFormed_decode p, encode_decode p⟩

/-! ### One row for each packet -/

/-- The row of the opcode table by message type and status alone. -/
def rowOfFields (mt status : Nibble) : TableRow :=
  if mt = Config.mtSysEx7 then rowOf (sysExInstr status 0#4 0#4 0#8 0#8 0#8 0#8 0#8 0#8)
  else rowOf (foreignInstr mt 0#28 0#32)

/-- The decoder's row looks at no other field. -/
theorem rowOf_decode (p : Packet) :
    rowOf (decode p) = rowOfFields (unpack p.word0).mt (unpack p.word0).status := by
  unfold rowOfFields
  split_ifs with h
  · rw [decode_of_sysEx h]; unfold sysExInstr; split_ifs <;> rfl
  · rw [decode_of_foreign h]; unfold foreignInstr; split_ifs <;> rfl

/-- The ten rows as masks and values of the message type and the status: `(ma, sa, mk, sk)` asks
that the type under `ma` is `mk` and the status under `sa` is `sk`. -/
def rowTests : List (Nibble × Nibble × Nibble × Nibble) :=
  [(0xF#4, 0xF#4, 3#4, 0#4), (0xF#4, 0xF#4, 3#4, 1#4), (0xF#4, 0xF#4, 3#4, 2#4),
    (0xF#4, 0xF#4, 3#4, 3#4), (0xF#4, 0xC#4, 3#4, 4#4), (0xF#4, 0x8#4, 3#4, 8#4),
    (0xE#4, 0#4, 0#4, 0#4), (0xF#4, 0#4, 2#4, 0#4), (0xC#4, 0#4, 4#4, 0#4),
    (0x8#4, 0#4, 8#4, 0#4)]

/-- The row of the opcode table with this test. -/
def rowOfTest (test : Nibble × Nibble × Nibble × Nibble) : TableRow :=
  let (ma, sa, mk, sk) := test
  { mask := layout ma 0#4 sa 0#4 0#16 0#32, pattern := layout mk 0#4 sk 0#4 0#16 0#32 }

/-- The test on the two fields. -/
def passesTest (mt status : Nibble) (test : Nibble × Nibble × Nibble × Nibble) : Bool :=
  let (ma, sa, mk, sk) := test
  mt &&& ma == mk && status &&& sa == sk

/-- The opcode table is the table of these tests. -/
theorem tableRows_eq_map : tableRows = rowTests.map rowOfTest := tableRows_layout

/-- A packet is of a row exactly where its message type and status pass the row's test. -/
theorem holds_rowOfTest (test : Nibble × Nibble × Nibble × Nibble) (p : Packet) :
    (rowOfTest test).holds p = passesTest (unpack p.word0).mt (unpack p.word0).status test :=
  holds_layout ..

/-- Of the ten tests, any message type and status pass that of their own row only. -/
theorem filter_rowTests (mt status : Nibble) :
    (rowTests.filter (passesTest mt status)).map rowOfTest = [rowOfFields mt status] := by
  revert mt status
  decide

/-- Settles O3: a row's test looks at the message type and the status only, and so does the
decoder's row; `filter_rowTests` compares the two for all values of both fields. -/
theorem everyPacketHasOneRow : Obligations.EveryPacketHasOneRow := by
  unfold Obligations.EveryPacketHasOneRow
  intro p
  rw [tableRows_eq_map, List.filter_map, rowOf_decode, ← filter_rowTests]
  simp only [Function.comp_def, holds_rowOfTest]

/-! ### Written-out words -/

/-- Settles O8: ten closed evaluations of the decoder. -/
theorem specWordsDecode : Obligations.SpecWordsDecode := by
  unfold Obligations.SpecWordsDecode
  decide

end Sys2Proof
end

section
/-! PROOFS. What holds of every packet DEC is handed: its frame (R102, R103) and the record in
`DEC.FIELDS` (R24). -/

namespace Sys2Proof.Machine

/-! ### The frame of a packet -/

/-- In a failed call every packet is counted and otherwise ignored (R103 (d)). -/
theorem exec_of_failed {s : State} (hm : s.dec.mode = .opened)
    (hf : Params.reached s.params.maxPkts s.dec.npkt = false) (he : s.dec.err ≠ none) (i : Instr) :
    exec i s = .next (s.setDec s.dec.counted) := by
  rw [exec_eq_takePacket, takePacket_failed hm hf he]

/-- Settles O32: the counted state is the one written out. -/
theorem failedCallIgnoresPackets : Obligations.FailedCallIgnoresPackets := by
  unfold Obligations.FailedCallIgnoresPackets
  exact fun i s hm hf he => exec_of_failed hm hf he i

/-- No packet writes `DEC.MODE` or `DEC.DONE`, and its meaning does not touch what the frame of R102
has counted and recorded. -/
theorem BodyEffect.frame {d e : DecState} (h : BodyEffect d e) :
    e.mode = d.mode ∧ e.done = d.done ∧ e.npkt = d.npkt ∧ e.fields = d.fields := by
  cases h <;> subst e <;> exact ⟨rfl, rfl, rfl, rfl⟩

/-- A packet fails the call with an error of DEC, or keeps the error register and grows `DEC.ACC` at
its end, with at most a boundary there. -/
theorem BodyEffect.failed_or_grown {d e : DecState} (h : BodyEffect d e) :
    (∃ err, err ≠ .emptyPayload ∧ e = d.raise err)
    ∨ (e.err = d.err ∧ ∃ more : List Byte, more.length ≤ 6 ∧ e.acc = d.acc ++ more
        ∧ (e.bounds = d.bounds ∨ e.bounds = d.bounds ++ [d.acc.length + more.length])) := by
  cases h with
  | failed err herr eq => exact .inl ⟨err, herr, eq⟩
  | one bytes size _ eq => subst eq; exact .inr ⟨rfl, bytes, size, rfl, .inr rfl⟩
  | start bytes size _ eq => subst eq; exact .inr ⟨rfl, bytes, size, rfl, .inl rfl⟩
  | cont bytes size _ eq => subst eq; exact .inr ⟨rfl, bytes, size, rfl, .inl rfl⟩
  | last bytes size _ eq => subst eq; exact .inr ⟨rfl, bytes, size, rfl, .inr rfl⟩

/-- A packet that is not refused writes DEC only: it is counted, or counted, recorded and taken. -/
theorem exec_next {i : Instr} {s t : State} (h : exec i s = .next t) :
    (s.dec.mode = .opened ∧ Params.reached s.params.maxPkts s.dec.npkt = false ∧ s.dec.err ≠ none
        ∧ t = s.setDec s.dec.counted)
    ∨ (s.examines ∧ ∃ e, t = s.setDec e
        ∧ BodyEffect (s.dec.counted.recorded (headOfInstr i)) e) := by
  rcases exec_cases i s with ⟨r, he⟩ | ⟨hm, hf, herr, he⟩ | ⟨hx, e, he, heff⟩
  · cases he.symm.trans h
  · cases he.symm.trans h; exact .inl ⟨hm, hf, herr, rfl⟩
  · cases he.symm.trans h; exact .inr ⟨hx, e, rfl, heff⟩

/-- Settles O39: a packet of a failed call adds no bytes; any other is one of the two cases of
`BodyEffect.failed_or_grown`, with no error before it. -/
theorem packetFrame : Obligations.PacketFrame := by
  unfold Obligations.PacketFrame
  intro i s t h
  rcases exec_next h with ⟨-, -, -, rfl⟩ | ⟨⟨-, -, hnone⟩, e, rfl, heff⟩
  · exact ⟨rfl, rfl, rfl, rfl, rfl, rfl, .inl rfl,
      fun _ => ⟨[], Nat.zero_le 6, (List.append_nil _).symm, .inl rfl⟩⟩
  · obtain ⟨hmode, hdone, hnpkt, -⟩ := heff.frame
    refine ⟨rfl, rfl, rfl, hmode, hdone, hnpkt, ?error, ?grown⟩
    case error =>
      rcases heff.failed_or_grown with ⟨err, -, rfl⟩ | ⟨herr, -⟩
      · exact .inr ⟨hnone, rfl, rfl, rfl⟩
      · exact .inl herr
    case grown =>
      intro hkept
      rcases heff.failed_or_grown with ⟨err, -, rfl⟩ | ⟨-, hgrown⟩
      · cases hnone.symm.trans hkept.symm
      · exact hgrown

/-- Settles O40: the record is made before the packet's own meaning, which keeps it. -/
theorem fieldsRecordPacket : Obligations.FieldsRecordPacket := by
  unfold Obligations.FieldsRecordPacket
  intro i s h
  obtain ⟨e, hbody, heff⟩ := bodyOfInstr_effect i (s.lookedAt i)
  obtain ⟨-, -, -, hfields⟩ := heff.frame
  refine ⟨_, exec_of_examines h i, ?_⟩
  rw [hbody, ← headOfInstr_eq]
  exact hfields

end Sys2Proof.Machine
end

section
/-! PROOFS. A packet's effect as one function of its words (R103, R104 to R111), in which the
table of R111 is looked up once for all statuses; what it shows of the run state machine, and of
what DEC does not check. -/

namespace Sys2Proof.Machine

/-! ### A packet's effect from its words -/

/-- What a packet of message type 3 with a legal byte-count does to a call that looks at it: the
table of R111 decides, and its valid bytes are appended. -/
def DecState.ranPacket (d : DecState) (status : Nibble) (bytes : List Byte) : DecState :=
  match runNext d.inrun status with
  | none => d.raise .malformedRun
  | some (inrun, complete) =>
    { d with
      acc := d.acc ++ bytes
      bounds := if complete then d.bounds ++ [(d.acc ++ bytes).length] else d.bounds
      inrun := inrun }

/-- What a packet does to a call that looks at it, in the order of the tests of R103 (a). -/
def DecState.tookPacket (d : DecState) (p : Packet) : DecState :=
  if (unpack p.word0).mt ≠ Config.mtSysEx7 then d.raise .unsupportedMessageType
  else if 6 < (unpack p.word0).count.toNat then d.raise .invalidByteCount
  else d.ranPacket (unpack p.word0).status (payloadOf p (unpack p.word0).count.toNat)

/-- Status 0 in the table of R111. -/
theorem acceptOne_eq_ranPacket {count : Nibble} {bytes : List Byte}
    (h : bytes.length = count.toNat) (s : State) :
    s.acceptOne count bytes = s.setDec (s.dec.ranPacket 0#4 bytes) := by
  cases hr : s.dec.inrun
  · rw [acceptOne_closed hr, ← h, ← List.length_append]
    simp [DecState.ranPacket, hr, runNext, DecState.closeAt, DecState.memWrite]
  · rw [acceptOne_inrun hr]
    simp [DecState.ranPacket, hr, runNext]

/-- Status 1 in the table of R111. -/
theorem acceptStart_eq_ranPacket (s : State) (bytes : List Byte) :
    s.acceptStart bytes = s.setDec (s.dec.ranPacket 1#4 bytes) := by
  cases hr : s.dec.inrun
  · rw [acceptStart_closed hr]; simp [DecState.ranPacket, hr, runNext, DecState.memWrite]
  · rw [acceptStart_inrun hr]; simp [DecState.ranPacket, hr, runNext]

/-- Status 2 in the table of R111. -/
theorem acceptCont_eq_ranPacket (s : State) (bytes : List Byte) :
    s.acceptCont bytes = s.setDec (s.dec.ranPacket 2#4 bytes) := by
  cases hr : s.dec.inrun
  · rw [acceptCont_closed hr]; simp [DecState.ranPacket, hr, runNext]
  · rw [acceptCont_inrun hr]; simp [DecState.ranPacket, hr, runNext, DecState.memWrite]

/-- Status 3 in the table of R111. -/
theorem acceptEnd_eq_ranPacket {count : Nibble} {bytes : List Byte}
    (h : bytes.length = count.toNat) (s : State) :
    s.acceptEnd count bytes = s.setDec (s.dec.ranPacket 3#4 bytes) := by
  cases hr : s.dec.inrun
  · rw [acceptEnd_closed hr]; simp [DecState.ranPacket, hr, runNext]
  · rw [acceptEnd_inrun hr, ← h, ← List.length_append]
    simp [DecState.ranPacket, hr, runNext, DecState.closeAt, DecState.memWrite]

/-- The reserved statuses have no row in the table of R111. -/
theorem runNext_reserved {status : Nibble} (h : 4 ≤ status.toNat) (inrun : Bool) :
    runNext inrun status = none := by
  have hall : ∀ (b : Bool) (n : Nibble), 4 ≤ n.toNat → runNext b n = none := by decide
  exact hall inrun status h

/-- A reserved status fails the call (R109). -/
theorem ranPacket_reserved {status : Nibble} (h : 4 ≤ status.toNat) (d : DecState)
    (bytes : List Byte) : d.ranPacket status bytes = d.raise .malformedRun := by
  simp only [DecState.ranPacket, runNext_reserved h]

/-- The meaning of a packet of message type 3 with a legal byte-count is that of its status. -/
theorem bodyOfInstr_sysEx {count : Nibble} (h : count.toNat ≤ 6) (status group : Nibble)
    (b0 b1 b2 b3 b4 b5 : Byte) (t : State) :
    bodyOfInstr (sysExInstr status group count b0 b1 b2 b3 b4 b5) t
      = t.setDec (t.dec.ranPacket status (payloadOfSlots count b0 b1 b2 b3 b4 b5)) := by
  have hlen := payloadOfSlots_length count b0 b1 b2 b3 b4 b5 h
  have hrange : ∀ n : Nibble, n ≠ 0#4 → n ≠ 1#4 → n ≠ 2#4 → n ≠ 3#4 → 4 ≤ n.toNat := by decide
  unfold sysExInstr
  split_ifs with h0 h1 h2 h3 h7 <;> rw [bodyOfInstr, checkCount_good h]
  · rw [h0, acceptOne_eq_ranPacket hlen]
  · rw [h1, acceptStart_eq_ranPacket]
  · rw [h2, acceptCont_eq_ranPacket]
  · rw [h3, acceptEnd_eq_ranPacket hlen]
  · rw [ranPacket_reserved (hrange status h0 h1 h2 h3), raise_malformedRun]
  · rw [ranPacket_reserved (hrange status h0 h1 h2 h3), raise_malformedRun]

/-- A byte-count above 6 is an error whatever the status is (R110). -/
theorem bodyOfInstr_sysEx_bad {count : Nibble} (h : 6 < count.toNat) (status group : Nibble)
    (b0 b1 b2 b3 b4 b5 : Byte) (t : State) :
    bodyOfInstr (sysExInstr status group count b0 b1 b2 b3 b4 b5) t
      = t.raise .invalidByteCount := by
  unfold sysExInstr
  split_ifs <;> rw [bodyOfInstr, checkCount_bad h]

/-- A foreign packet fails the call whatever its message type is (R104). -/
theorem bodyOfInstr_foreign (mt : Nibble) (rest : BitVec 28) (word1 : Word) (t : State) :
    bodyOfInstr (foreignInstr mt rest word1) t = t.raise .unsupportedMessageType := by
  unfold foreignInstr
  split_ifs <;> rfl

/-- The meaning of a decoded packet, read off its words. -/
theorem bodyOfInstr_decode (p : Packet) (t : State) :
    bodyOfInstr (decode p) t = t.setDec (t.dec.tookPacket p) := by
  unfold DecState.tookPacket
  split_ifs with hmt hc
  · rw [decode_of_foreign hmt, bodyOfInstr_foreign, raise_unsupportedMessageType]
  · rw [decode_of_sysEx (not_not.mp hmt), bodyOfInstr_sysEx_bad hc, raise_invalidByteCount]
  · rw [decode_of_sysEx (not_not.mp hmt), bodyOfInstr_sysEx (Nat.le_of_not_lt hc)]; rfl

/-- A packet that is looked at, by its words (R102, R103). -/
theorem exec_decode_of_examines {s : State} (h : s.examines) (p : Packet) :
    exec (decode p) s
      = .next (s.setDec ((s.dec.counted.recorded (upperHalf p.word0)).tookPacket p)) := by
  have hhead : headOfInstr (decode p) = upperHalf p.word0 := by rw [headOfInstr_eq, encode_decode]
  rw [exec_of_examines h, bodyOfInstr_decode, State.lookedAt, hhead]
  rfl

/-! ### The run state machine -/

/-- A packet that passes the tests before the status is decided by the table of R111. -/
theorem tookPacket_of_passesTests {p : Packet} (h : passesTests p = true) (d : DecState) :
    d.tookPacket p
      = d.ranPacket (unpack p.word0).status (payloadOf p (unpack p.word0).count.toNat) := by
  simp only [passesTests, Bool.and_eq_true, beq_iff_eq, decide_eq_true_eq] at h
  obtain ⟨hmt, hc⟩ := h
  rw [DecState.tookPacket, if_neg (not_not.mpr hmt), if_neg (Nat.not_lt.mpr hc)]

/-- The encoding of an instruction with a legal byte-count passes the two tests (R51, R103 (a)). -/
theorem passesTests_encode {i : Instr} (h : i.countLegal = true) :
    passesTests (encode i) = true := by
  cases i with
  | notSx7Mt0to1 | notSx7Mt2 | notSx7Mt4to7 | notSx7Mt8to15 => cases h
  | _ =>
    have hc := of_decide_eq_true h
    simpa [passesTests, encode] using hc

/-- Settles O38: a well-formed instruction is what its encoding decodes to, so its effect is that of
the encoding's words, which pass the two tests; what is left is the table. -/
theorem runStateMachine : Obligations.RunStateMachine := by
  unfold Obligations.RunStateMachine
  intro i s hwf hlegal h
  have hexec := exec_decode_of_examines h (encode i)
  rw [decodeEncodeRoundTrip i hwf, tookPacket_of_passesTests (passesTests_encode hlegal)] at hexec
  obtain ⟨-, -, herr⟩ := h
  refine ⟨_, hexec, ?_⟩
  have hinrun : (s.dec.counted.recorded (upperHalf (encode i).word0)).inrun = s.dec.inrun := rfl
  simp only [DecState.ranPacket, hinrun, State.setDec_dec]
  cases runNext s.dec.inrun (unpack (encode i).word0).status with
  | none => rfl
  | some next => exact ⟨herr, rfl, rfl⟩

/-! ### What DEC does not check -/

/-- The effect of a packet does not look at the record of the one before. -/
theorem recorded_ranPacket (d : DecState) (head : BitVec 16) (status : Nibble) (bytes : List Byte) :
    (d.recorded head).ranPacket status bytes = (d.ranPacket status bytes).recorded head := by
  have hinrun : (d.recorded head).inrun = d.inrun := rfl
  simp only [DecState.ranPacket, hinrun]
  cases runNext d.inrun status <;> rfl

/-- Nor does any other packet's. -/
theorem recorded_tookPacket (d : DecState) (head : BitVec 16) (p : Packet) :
    (d.recorded head).tookPacket p = (d.tookPacket p).recorded head := by
  unfold DecState.tookPacket
  split_ifs
  · rfl
  · rfl
  · exact recorded_ranPacket ..

/-- Settles O41: the effect of a packet of message type 3 is a function of status, byte-count and
valid bytes (`DecState.tookPacket`), made before the record or after it alike; a failed call does
not look at them. -/
theorem groupAndPaddingUnchecked : Obligations.GroupAndPaddingUnchecked := by
  unfold Obligations.GroupAndPaddingUnchecked
  intro p q s t hp hq hstatus hcount hbytes h
  have hsame (d : DecState) : d.tookPacket q = d.tookPacket p := by
    rw [DecState.tookPacket, DecState.tookPacket, ← hbytes, hp, hq, hstatus, hcount]
  rcases exec_next h with ⟨hm, hf, herr, rfl⟩ | ⟨hx, -⟩
  · exact ⟨s.dec.fields, exec_of_failed hm hf herr (decode q)⟩
  · have ht := h.symm.trans (exec_decode_of_examines hx p)
    cases ht
    refine ⟨upperHalf q.word0, ?_⟩
    rw [exec_decode_of_examines hx q, recorded_tookPacket, recorded_tookPacket, hsame]
    rfl

end Sys2Proof.Machine
end

section
/-! PROOFS. What one step can do to SEG, to DEC and to the host's side, said once for each; and the
safety statements that are a case analysis of it (R13 to R16, R21, R24). -/

namespace Sys2Proof.Machine

/-! ### The three kinds of step -/

/-- Waiting changes nothing (assumption 5). -/
theorem step_of_wait {s : State} (h : s.choose = .wait) : step s = .next s := by
  simp only [step, State.advance, h]

/-- A chosen emit is `SEG.EMIT`, with the turn used up. -/
theorem step_of_emit {s : State} (h : s.choose = .emit) : step s = s.spendTurn.segEmit := by
  simp only [step, State.advance, h]

/-- A chosen command takes its step, out of the inbox. -/
theorem step_of_take {s : State} {c : HostCmd} {rest : List HostCmd} (h : s.choose = .take c rest) :
    step s = (s.fetched rest).command c := by
  simp only [step, State.advance, h]

/-- What the emit step leaves: `SEG.EMIT` writes SEG only. -/
theorem segEmit_next {s t : State} (h : s.segEmit = .next t) :
    ∃ chunk, s.memRead s.seg.pos (countOf s.seg.remaining) = some chunk ∧ s.seg.remaining ≠ 0
      ∧ t = s.setSeg (s.seg.emitted (statusOf s.seg.first s.seg.remaining)
          (countOf s.seg.remaining) chunk) := by
  rcases segEmit_cases s with ⟨chunk, hread, hr, he⟩ | ⟨r, he⟩
  · cases he.symm.trans h; exact ⟨chunk, hread, hr, rfl⟩
  · cases he.symm.trans h

/-- Reading the buffer looks at SEG only. -/
theorem memRead_congr {s t : State} (h : s.seg = t.seg) (i n : Nat) :
    s.memRead i n = t.memRead i n := by
  simp only [State.memRead, h]

/-! ### What a step does to SEG -/

/-- Everything the step from `s` to `t` can do to SEG. -/
inductive SegChange (s t : State) : Prop where
  /-- SEG is left as it is. -/
  | same (eq : t.seg = s.seg)
  /-- `SEG.EMIT` (R83 to R86). -/
  | emit (chosen : s.choose = .emit) (ready : s.emits) (left : s.seg.remaining ≠ 0)
      (chunk : List Byte) (read : s.memRead s.seg.pos (countOf s.seg.remaining) = some chunk)
      (eq : t.seg = s.seg.emitted (statusOf s.seg.first s.seg.remaining)
        (countOf s.seg.remaining) chunk)
  /-- `SEG.SETGROUP` (R81). -/
  | setGroup (group : Nibble) (rest : List HostCmd)
      (chosen : s.choose = .take (.setGroup group) rest)
      (eq : t.seg = { s.seg with group := group })
  /-- `SEG.SUBMIT` of no bytes (R82). -/
  | submitEmpty (rest : List HostCmd) (chosen : s.choose = .take (.submit []) rest)
      (idle : s.seg.mode = .idle) (eq : t.seg = s.seg.raise .emptyPayload)
  /-- `SEG.SUBMIT` of a message (R82). -/
  | submit (bytes : List Byte) (rest : List HostCmd)
      (chosen : s.choose = .take (.submit bytes) rest)
      (idle : s.seg.mode = .idle) (nonempty : bytes ≠ [])
      (fits : Params.within s.params.maxLen bytes.length = true) (eq : t.seg = s.seg.accepted bytes)
  /-- `SEG.POP` (R88). -/
  | pop (p : Packet) (left : List Packet) (rest : List HostCmd)
      (chosen : s.choose = .take .pop rest) (queue : s.seg.txq = p :: left)
      (eq : t.seg = { s.seg with txq := left })
      (reply : t.port.replies = s.port.replies ++ [.packet p])
  /-- The reset (R150). -/
  | reset (rest : List HostCmd) (chosen : s.choose = .take .reset rest)
      (eq : t.seg = SegState.reset)

/-- A packet leaves SEG as it is (R13). -/
theorem exec_seg {i : Instr} {s t : State} (h : exec i s = .next t) : t.seg = s.seg := by
  rcases exec_next h with ⟨-, -, -, rfl⟩ | ⟨-, e, rfl, -⟩ <;> rfl

/-- `DEC.BEGIN` opens a fresh call and writes nothing else (R101). -/
theorem decBegin_next {s t : State} (h : s.decBegin = .next t) :
    s.dec.mode = .idle ∧ t = s.setDec DecState.fresh := by
  rcases decBegin_cases s with ⟨-, he⟩ | ⟨hm, he⟩ <;> cases he.symm.trans h
  exact ⟨hm, rfl⟩

/-- `DEC.END` closes the call, answers, and writes nothing else (R112). -/
theorem decEnd_next {s t : State} (h : s.decEnd = .next t) :
    s.dec.mode = .opened ∧ t = (s.setDec s.dec.closed).answer s.dec.closed.outcome := by
  rcases decEnd_cases s with ⟨-, he⟩ | ⟨hm, he⟩ <;> cases he.symm.trans h
  exact ⟨hm, rfl⟩

/-- Everything a submission that is not held can leave (R82). -/
theorem segSubmit_next {s t : State} {bytes : List Byte} (hheld : s.held (.submit bytes) = false)
    (h : s.segSubmit bytes = .next t) :
    s.seg.mode = .idle
    ∧ ((bytes = [] ∧ t = s.raise .emptyPayload)
      ∨ (bytes ≠ [] ∧ Params.within s.params.maxLen bytes.length = true
          ∧ t = s.setSeg (s.seg.accepted bytes))) := by
  rcases segSubmit_cases s bytes with ⟨hm, -⟩ | ⟨-, -, he⟩ | ⟨hm, hb, he⟩ | ⟨hm, hb, hw, he⟩
  · cases hheld.symm.trans ((held_submit s bytes).mpr hm)
  · cases he.symm.trans h
  · cases he.symm.trans h; exact ⟨hm, .inl ⟨hb, rfl⟩⟩
  · cases he.symm.trans h; exact ⟨hm, .inr ⟨hb, hw, rfl⟩⟩

/-- What a pop that is not held leaves (R88). -/
theorem segPop_next {s t : State} (hheld : s.held .pop = false) (h : s.segPop = .next t) :
    ∃ p rest, s.seg.txq = p :: rest
      ∧ t = (s.setSeg { s.seg with txq := rest }).answer (.packet p) := by
  rcases segPop_cases s with ⟨hq, -⟩ | ⟨p, rest, hq, he⟩
  · simp only [State.held, hq, List.isEmpty_nil, Bool.true_eq_false] at hheld
  · cases he.symm.trans h; exact ⟨p, rest, hq, rfl⟩

/-- A step does one of these things to SEG. -/
theorem step_segChange {s t : State} (h : step s = .next t) : SegChange s t := by
  rcases step_cases s with ⟨-, he⟩ | ⟨hc, hready, he⟩ | ⟨c, rest, hc, -, he⟩
  · cases he.symm.trans h; exact .same rfl
  · rw [he] at h
    obtain ⟨chunk, hread, hr, rfl⟩ := segEmit_next h
    rw [memRead_congr s.spendTurn_seg] at hread
    simp only [State.spendTurn_seg] at hread hr
    exact .emit hc ((emitReady_iff s).mp hready) hr chunk hread
      (by simp only [State.spendTurn_seg, State.setSeg_seg])
  · rw [he] at h
    obtain ⟨-, -, hheld⟩ := choose_take hc
    cases c with
    | setGroup group =>
      cases h
      exact .setGroup group rest hc (by rw [State.segSetGroup_seg, State.fetched_seg])
    | submit bytes =>
      obtain ⟨hm, ⟨rfl, rfl⟩ | ⟨hb, hw, rfl⟩⟩ := segSubmit_next hheld h
      · rw [State.fetched_seg] at hm
        exact .submitEmpty rest hc hm
          (by rw [raise_emptyPayload, State.setSeg_seg, State.fetched_seg])
      · rw [State.fetched_seg] at hm
        rw [State.fetched_params] at hw
        exact .submit bytes rest hc hm hb hw (by rw [State.setSeg_seg, State.fetched_seg])
    | pop =>
      obtain ⟨p, left, hq, rfl⟩ := segPop_next hheld h
      rw [State.fetched_seg] at hq
      exact .pop p left rest hc hq (by rw [State.answer_seg, State.setSeg_seg, State.fetched_seg])
        (by rw [State.answer_replies, State.setSeg_port, State.fetched_replies])
    | decBegin =>
      obtain ⟨-, rfl⟩ := decBegin_next h
      exact .same (s.fetched_seg rest)
    | decPkt p => exact .same ((exec_seg h).trans (s.fetched_seg rest))
    | decEnd =>
      obtain ⟨-, rfl⟩ := decEnd_next h
      exact .same (s.fetched_seg rest)
    | readReg r =>
      cases h
      obtain ⟨hseg, -⟩ := readReg_frame (s.fetched rest) r
      exact .same (hseg.trans (s.fetched_seg rest))
    | reset => cases h; exact .reset rest hc rfl

/-! ### What a step does to DEC -/

/-- Everything the step from `s` to `t` can do to DEC. -/
inductive DecChange (s t : State) : Prop where
  /-- DEC is left as it is. -/
  | same (eq : t.dec = s.dec)
  /-- `DEC.BEGIN` (R101). -/
  | begin (rest : List HostCmd) (chosen : s.choose = .take .decBegin rest)
      (eq : t.dec = DecState.fresh)
  /-- A packet of a failed call (R103 (d)). -/
  | counted (p : Packet) (rest : List HostCmd) (chosen : s.choose = .take (.decPkt p) rest)
      (room : Params.reached s.params.maxPkts s.dec.npkt = false) (opened : s.dec.mode = .opened)
      (eq : t.dec = s.dec.counted)
  /-- A packet that is looked at (R104 to R110). -/
  | taken (p : Packet) (rest : List HostCmd) (chosen : s.choose = .take (.decPkt p) rest)
      (examined : s.examines)
      (effect : BodyEffect (s.dec.counted.recorded (headOfInstr (decode p))) t.dec)
  /-- `DEC.END` (R112). -/
  | closed (rest : List HostCmd) (chosen : s.choose = .take .decEnd rest)
      (opened : s.dec.mode = .opened) (eq : t.dec = s.dec.closed)
  /-- The reset (R150). -/
  | reset (rest : List HostCmd) (chosen : s.choose = .take .reset rest)
      (eq : t.dec = DecState.reset)

/-- A step does one of these things to DEC. -/
theorem step_decChange {s t : State} (h : step s = .next t) : DecChange s t := by
  rcases step_cases s with ⟨-, he⟩ | ⟨-, -, he⟩ | ⟨c, rest, hc, -, he⟩
  · cases he.symm.trans h; exact .same rfl
  · rw [he] at h
    obtain ⟨chunk, -, -, rfl⟩ := segEmit_next h
    exact .same s.spendTurn_dec
  · rw [he] at h
    have hdec := s.fetched_dec rest
    cases c with
    | setGroup group => cases h; exact .same hdec
    | submit bytes => exact .same ((segSubmit_dec h).trans hdec)
    | pop => exact .same ((segPop_dec h).trans hdec)
    | decBegin =>
      obtain ⟨-, rfl⟩ := decBegin_next h
      exact .begin rest hc rfl
    | decPkt p =>
      rcases exec_next h with ⟨hm, hf, -, rfl⟩ | ⟨hx, e, rfl, heff⟩
      · rw [hdec] at hm
        rw [hdec, State.fetched_params] at hf
        exact .counted p rest hc hf hm (by rw [State.setDec_dec, hdec])
      · simp only [State.examines, hdec, State.fetched_params] at hx
        rw [hdec] at heff
        exact .taken p rest hc hx heff
    | decEnd =>
      obtain ⟨hm, rfl⟩ := decEnd_next h
      rw [hdec] at hm
      exact .closed rest hc hm (by rw [State.answer_dec, State.setDec_dec, hdec])
    | readReg r =>
      cases h
      obtain ⟨-, hread, -⟩ := readReg_frame (s.fetched rest) r
      exact .same (hread.trans hdec)
    | reset => cases h; exact .reset rest hc rfl

/-! ### What a command does to the inbox -/

/-- A command that is not held leaves the inbox as it is: only a held one goes back to wait (R91).
-/
theorem command_inbox {s t : State} {c : HostCmd} (hheld : s.held c = false)
    (h : s.command c = .next t) : t.port.inbox = s.port.inbox := by
  cases c with
  | setGroup group => cases h; rfl
  | submit bytes =>
    obtain ⟨-, ⟨-, rfl⟩ | ⟨-, -, rfl⟩⟩ := segSubmit_next hheld h <;> rfl
  | pop => obtain ⟨p, left, -, rfl⟩ := segPop_next hheld h; rfl
  | decBegin => obtain ⟨-, rfl⟩ := decBegin_next h; rfl
  | decPkt p => rcases exec_next h with ⟨-, -, -, rfl⟩ | ⟨-, e, rfl, -⟩ <;> rfl
  | decEnd => obtain ⟨-, rfl⟩ := decEnd_next h; rfl
  | readReg r =>
    cases h
    obtain ⟨-, -, -, hinbox, -⟩ := readReg_frame s r
    exact hinbox
  | reset => cases h; rfl

/-- A step that takes a command leaves the commands behind it. -/
theorem step_take_inbox {s t : State} {c : HostCmd} {rest : List HostCmd}
    (hc : s.choose = .take c rest) (h : step s = .next t) : t.port.inbox = rest := by
  obtain ⟨-, -, hheld⟩ := choose_take hc
  rw [step_of_take hc] at h
  exact command_inbox hheld h

/-! ### Safety of one step -/

/-- Settles O42: of the changes of DEC, a packet is looked at only with no error, and the end of a
failed call keeps its error. -/
theorem firstErrorSticks : Obligations.FirstErrorSticks := by
  unfold Obligations.FirstErrorSticks
  intro s t e he h
  cases step_decChange h with
  | same eq => exact .inl (eq ▸ he)
  | begin rest hc eq => exact .inr (.inl ⟨rest, hc, eq⟩)
  | counted p rest _ _ _ eq => exact .inl (eq ▸ he)
  | taken p rest _ hx =>
    obtain ⟨-, -, hnone⟩ := hx
    cases he.symm.trans hnone
  | closed rest _ _ eq => rw [eq, closed_of_failed he]; exact .inl he
  | reset rest hc eq => exact .inr (.inr ⟨rest, hc, eq⟩)

/-- Settles O53: every other change of DEC names the command that makes it. -/
theorem onlyHostChangesDecoder : Obligations.OnlyHostChangesDecoder := by
  unfold Obligations.OnlyHostChangesDecoder
  intro s t h hne
  cases step_decChange h with
  | same eq => exact absurd eq hne
  | begin rest hc => exact ⟨_, rest, hc, .inl rfl⟩
  | counted p rest hc => exact ⟨_, rest, hc, .inr (.inr (.inr ⟨p, rfl⟩))⟩
  | taken p rest hc => exact ⟨_, rest, hc, .inr (.inr (.inr ⟨p, rfl⟩))⟩
  | closed rest hc => exact ⟨_, rest, hc, .inr (.inl rfl)⟩
  | reset rest hc => exact ⟨_, rest, hc, .inr (.inr (.inl rfl))⟩

/-- Settles O52: an emit writes neither group, a submission copies `SEG.GROUP`. -/
theorem onlySetGroupWritesGroup : Obligations.OnlySetGroupWritesGroup := by
  unfold Obligations.OnlySetGroupWritesGroup
  intro s t h
  cases step_segChange h with
  | same eq => rw [eq]; exact ⟨fun hne => absurd rfl hne, fun hne => absurd rfl hne⟩
  | emit _ _ _ chunk _ eq =>
    obtain ⟨hgroup, hgrpL, -⟩ := emitted_fields s.seg (statusOf s.seg.first s.seg.remaining)
      (countOf s.seg.remaining) chunk
    rw [eq]
    exact ⟨fun hne => absurd hgroup hne, fun hne => absurd hgrpL hne⟩
  | setGroup group rest hc eq =>
    rw [eq]
    exact ⟨fun _ => .inl ⟨rest, hc⟩, fun hne => absurd rfl hne⟩
  | submitEmpty rest _ _ eq =>
    rw [eq]; exact ⟨fun hne => absurd rfl hne, fun hne => absurd rfl hne⟩
  | submit bytes rest hc _ _ _ eq =>
    rw [eq]
    exact ⟨fun hne => absurd rfl hne, fun _ => .inl ⟨bytes, rest, hc, rfl⟩⟩
  | pop p left rest _ _ eq =>
    rw [eq]; exact ⟨fun hne => absurd rfl hne, fun hne => absurd rfl hne⟩
  | reset rest hc => exact ⟨fun _ => .inr ⟨rest, hc⟩, fun _ => .inr ⟨rest, hc⟩⟩

/-- Settles O51: an emit pushes one packed packet, a pop takes the head, the reset empties the
queue, and nothing else touches it. -/
theorem queueIsFirstInFirstOut : Obligations.QueueIsFirstInFirstOut := by
  unfold Obligations.QueueIsFirstInFirstOut
  intro s t h
  cases step_segChange h with
  | same eq => exact .inl (by rw [eq])
  | emit hc _ _ chunk _ eq =>
    obtain ⟨-, -, -, -, -, -, htxq, -⟩ := emitted_fields s.seg
      (statusOf s.seg.first s.seg.remaining) (countOf s.seg.remaining) chunk
    refine .inr (.inl ⟨hc, _, by rw [eq]; exact htxq, ?_, ?_⟩) <;> rw [unpack_pack]
    rfl
  | setGroup group rest _ eq => exact .inl (by rw [eq])
  | submitEmpty rest _ _ eq => exact .inl (by rw [eq]; rfl)
  | submit bytes rest _ _ _ _ eq => exact .inl (by rw [eq]; rfl)
  | pop p left rest hc hq eq hreply =>
    exact .inr (.inr (.inl ⟨p, rest, hc, by rw [eq]; exact hq, hreply⟩))
  | reset rest hc eq => exact .inr (.inr (.inr ⟨rest, hc, by rw [eq]; rfl⟩))

/-- SEG reports success once a message has ended without an error (R20). -/
theorem result_eq_ok {g : SegState} (hd : g.done = true) (he : g.err = none) : g.result = .ok := by
  simp only [SegState.result, hd, he]

/-- An emit that reaches the end of the message had at most 6 bytes left (R69). -/
theorem remaining_le_of_last {g : SegState} (h : g.pos + countOf g.remaining = g.len) :
    g.remaining ≤ 6 := by
  have hc := countOf_le g.remaining
  have hr : g.remaining = g.len - g.pos := rfl
  omega

/-- Settles O50: of the changes of SEG only an accepted submission sets `RUN`, and besides the reset
only an emit that reaches `SEG.LEN` sets `IDLE`. -/
theorem onlySubmitStartsMessage : Obligations.OnlySubmitStartsMessage := by
  unfold Obligations.OnlySubmitStartsMessage
  intro s t _ h
  have unmoved (hm : t.seg.mode = s.seg.mode) :
      (s.seg.mode = .idle → t.seg.mode = .run →
        ∃ bytes rest, bytes ≠ [] ∧ s.choose = .take (.submit bytes) rest)
      ∧ (s.seg.mode = .run → t.seg.mode = .idle →
        (s.choose = .emit ∧ s.seg.remaining ≤ 6 ∧ t.seg.result = .ok)
        ∨ ∃ rest, s.choose = .take .reset rest) := by
    rw [hm]
    exact ⟨fun hidle hrun => (nomatch hidle.symm.trans hrun),
      fun hrun hidle => (nomatch hidle.symm.trans hrun)⟩
  cases step_segChange h with
  | same eq => exact unmoved (by rw [eq])
  | emit hc hready _ chunk _ eq =>
    obtain ⟨hrun, -⟩ := hready
    obtain ⟨-, -, -, -, -, -, -, hend, hgo⟩ := emitted_fields s.seg
      (statusOf s.seg.first s.seg.remaining) (countOf s.seg.remaining) chunk
    by_cases hlast : s.seg.pos + countOf s.seg.remaining = s.seg.len
    · obtain ⟨-, hdone, herr⟩ := hend hlast
      refine ⟨fun hidle _ => ?_, fun _ _ => .inl ⟨hc, remaining_le_of_last hlast, ?_⟩⟩
      · cases hidle.symm.trans hrun
      · rw [eq]; exact result_eq_ok hdone herr
    · obtain ⟨hm, -⟩ := hgo hlast
      exact unmoved (by rw [eq]; exact hm)
  | setGroup group rest _ eq => exact unmoved (by rw [eq])
  | submitEmpty rest _ _ eq => exact unmoved (by rw [eq]; rfl)
  | submit bytes rest hc hidle hb _ _ =>
    refine ⟨fun _ _ => ⟨bytes, rest, hb, hc⟩, fun hrun => ?_⟩
    cases hidle.symm.trans hrun
  | pop p left rest _ _ eq => exact unmoved (by rw [eq])
  | reset rest hc eq =>
    refine ⟨fun _ hrun => ?_, fun _ _ => .inr ⟨rest, hc⟩⟩
    rw [eq] at hrun; cases hrun

end Sys2Proof.Machine
end

section
/-! PROOFS. SEG and DEC share no state (R13, R40): a step of one does the same whatever the
other holds; and a call owes nothing to the calls before it (R153). -/

namespace Sys2Proof.Machine

/-- A packet looks at DEC and the parameters only (R13). -/
theorem exec_decode_congr {s t u : State} {p : Packet} (hdec : t.dec = s.dec)
    (hparams : t.params = s.params) (h : exec (decode p) s = .next u) :
    exec (decode p) t = .next (t.setDec u.dec) := by
  rcases exec_next h with ⟨hm, hf, herr, rfl⟩ | ⟨hx, -⟩
  · rw [← hdec] at hm herr
    rw [← hdec, ← hparams] at hf
    rw [exec_of_failed hm hf herr, State.setDec_dec, hdec]
  · cases h.symm.trans (exec_decode_of_examines hx p)
    have hx' : t.examines := by simpa only [State.examines, hdec, hparams] using hx
    rw [exec_decode_of_examines hx', State.setDec_dec, hdec]

/-- A command of DEC does the same whatever SEG holds. -/
theorem command_setSeg {s u : State} {c : HostCmd}
    (hc : c = .decBegin ∨ c = .decEnd ∨ ∃ p, c = .decPkt p) (h : s.command c = .next u)
    (g : SegState) : u.seg = s.seg ∧ (s.setSeg g).command c = .next (u.setSeg g) := by
  obtain rfl | rfl | ⟨p, rfl⟩ := hc
  · obtain ⟨hm, rfl⟩ := decBegin_next h
    exact ⟨rfl, decBegin_of_idle (s := s.setSeg g) hm⟩
  · obtain ⟨hm, rfl⟩ := decEnd_next h
    exact ⟨rfl, decEnd_of_opened (s := s.setSeg g) hm⟩
  · refine ⟨exec_seg h, ?_⟩
    have hexec := exec_decode_congr (s := s) (t := s.setSeg g) rfl rfl h
    rcases exec_next h with ⟨-, -, -, rfl⟩ | ⟨-, e, rfl, -⟩ <;> exact hexec

/-- `SEG.EMIT` does the same whatever the rest of the state holds. -/
theorem segEmit_congr {s t u : State} (hseg : u.seg = s.seg) (h : s.segEmit = .next t) :
    u.segEmit = .next (u.setSeg t.seg) := by
  obtain ⟨chunk, hread, hr, rfl⟩ := segEmit_next h
  rw [← memRead_congr hseg, ← hseg] at hread
  rw [← hseg] at hr
  rw [segEmit_of_read hr hread, State.setSeg_seg, hseg]

/-- Settles O49: the command is run over the SEG the emit leaves, the emit over the state the
command leaves, and both give the command's state with the emit's SEG. -/
theorem emitCommutesWithDecoder : Obligations.EmitCommutesWithDecoder := by
  unfold Obligations.EmitCommutesWithDecoder
  intro s t u c hc ht hu
  obtain ⟨hseg, hcommand⟩ := command_setSeg hc hu t.seg
  have hemit := segEmit_congr hseg ht
  obtain ⟨chunk, -, -, rfl⟩ := segEmit_next ht
  exact ⟨rfl, hseg, _, hcommand, hemit⟩

/-- Settles O55: `DEC.BEGIN` leaves the one fresh state; of what a submission leaves, only the group
and the queue are the state's own. -/
theorem callsOweNothing : Obligations.CallsOweNothing := by
  unfold Obligations.CallsOweNothing
  refine ⟨fun s u t v ht hv => ?begin, fun s u t v bytes hb hs hu hgroup ht hv => ?submit⟩
  case begin =>
    obtain ⟨-, rfl⟩ := decBegin_next ht
    obtain ⟨-, rfl⟩ := decBegin_next hv
    rfl
  case submit =>
    have accepted (x y : State) (hx : x.seg.mode = .idle) (hy : x.segSubmit bytes = .next y) :
        y = x.setSeg (x.seg.accepted bytes) := by
      have hheld : x.held (.submit bytes) = false := by simp only [State.held, hx]; rfl
      obtain ⟨-, ⟨he, -⟩ | ⟨-, -, hacc⟩⟩ := segSubmit_next hheld hy
      · exact absurd he hb
      · exact hacc
    cases accepted s t hs ht
    cases accepted u v hu hv
    simp only [State.setSeg_seg, SegState.accepted, hgroup, and_self]

end Sys2Proof.Machine
end

section
/-! PROOFS. What stands at the model's edge: the reset and the host's side (R150), the packet placed
for the next step, and the register reads (R27). -/

namespace Sys2Proof.Machine

/-! ### The reset and the fetch -/

/-- Settles O44: the reset is `State.coreReset`, which writes SEG and DEC. -/
theorem resetKeepsHostSide : Obligations.ResetKeepsHostSide := by
  unfold Obligations.ResetKeepsHostSide
  intro s t h
  cases (command_reset s).symm.trans h
  exact ⟨s.coreReset_port, s.coreReset_params⟩

/-- Opening a call where none is open touches neither SEG, nor the parameters, nor the host's side.
-/
theorem withCall_frame (s : State) :
    s.withCall.seg = s.seg ∧ s.withCall.params = s.params ∧ s.withCall.port = s.port
      ∧ (s.dec.mode = .opened → s.withCall.dec = s.dec)
      ∧ (s.dec.mode = .idle → s.withCall.dec = DecState.fresh) := by
  cases h : s.dec.mode <;> simp [State.withCall, h]

/-- Whether SEG is ready is not changed by placing a packet. -/
theorem emitReady_placePacket (s : State) (p : Packet) :
    (s.placePacket p).emitReady = s.withCall.emitReady := rfl

/-- A placed packet is chosen at once: its turn is placed with it where SEG could move too. -/
theorem choose_placePacket (s : State) (p : Packet) :
    (s.placePacket p).choose = .take (.decPkt p) s.withCall.port.inbox := by
  have hpick : (s.placePacket p).pickReady (s.placePacket p).port.inbox
      = some (.decPkt p, s.withCall.port.inbox) := pickReady_cons rfl
  have hturn : ((s.placePacket p).emitReady && (s.placePacket p).port.segTurn) = false := by
    rw [emitReady_placePacket]
    cases hr : s.withCall.emitReady with
    | false => rfl
    | true => simp [State.placePacket, hr, PortState.segTurn]
  simp only [State.choose, hpick, hturn, Bool.false_eq_true, if_false]

/-- Fetching the placed packet leaves the state it was placed in. -/
theorem fetched_placePacket (s : State) (p : Packet) :
    (s.placePacket p).fetched s.withCall.port.inbox = s.withCall := by
  have hpick : (s.placePacket p).pickReady (s.placePacket p).port.inbox
      = some (.decPkt p, s.withCall.port.inbox) := pickReady_cons rfl
  simp only [State.fetched, State.spendTurn, emitReady_placePacket, hpick, Option.isSome_some,
    Bool.and_true]
  cases hr : s.withCall.emitReady <;> simp [State.placePacket, hr, State.setPort]

/-- Settles O48: the chosen command's step is `exec` by definition of `State.command`; a placed
packet is chosen by `choose_placePacket`, from the state of `fetched_placePacket`. -/
theorem stepRunsDecodedPacket : Obligations.StepRunsDecodedPacket := by
  unfold Obligations.StepRunsDecodedPacket
  refine ⟨fun s p rest hc => ?chosen, fun s nbits w => ?placed⟩
  case chosen =>
    exact ⟨wellFormed_decode p, step_of_take hc, s.fetched_seg rest, s.fetched_dec rest,
      s.fetched_params rest, rfl, s.fetched_replies rest, s.spendTurn_freeReads⟩
  case placed =>
    obtain ⟨hseg, hparams, hport, hopened, hidle⟩ := withCall_frame s
    refine ⟨s.withCall, ?_, hseg, hparams, hport, hopened, hidle⟩
    rw [State.withFetchWord, step_of_take (choose_placePacket s _), fetched_placePacket]
    rfl

/-! ### Register reads -/

/-- With no call open and no error a read of `DEC.ACC` gives the accumulator (R27). -/
theorem readAcc_of_idle {s : State} (he : s.dec.err = none) (hm : s.dec.mode = .idle) :
    s.readAcc = s.answer (.bytes s.dec.acc) := by
  simp [State.readAcc, he, hm]

/-- With no call open and no error a read of `DEC.BOUNDS` gives the boundaries (R27). -/
theorem readBounds_of_idle {s : State} (he : s.dec.err = none) (hm : s.dec.mode = .idle) :
    s.readBounds = s.answer (.bounds s.dec.bounds) := by
  simp [State.readBounds, he, hm]

/-- After a failure `DEC.ACC` reads as empty (R24). -/
theorem readAcc_of_failed {s : State} (he : s.dec.err ≠ none) : s.readAcc = s.answer (.bytes []) :=
  if_pos (Option.isSome_iff_ne_none.mpr he)

/-- After a failure `DEC.BOUNDS` reads as empty (R24). -/
theorem readBounds_of_failed {s : State} (he : s.dec.err ≠ none) :
    s.readBounds = s.answer (.bounds []) :=
  if_pos (Option.isSome_iff_ne_none.mpr he)

/-- `SEG.MODE` reads as 1 while a message runs (R14). -/
theorem segMode_bit (m : SegMode) : m.bit = if m = .run then 1#1 else 0#1 := by
  cases m <;> rfl

/-- `DEC.MODE` reads as 1 while a call is open (R22). -/
theorem decMode_bit (m : DecMode) : m.bit = if m = .opened then 1#1 else 0#1 := by
  cases m <;> rfl

/-- Settles O54: register by register; the two buffers by the state of the call, and what holds of
every read by `readReg_frame`. -/
theorem registerReadsValue : Obligations.RegisterReadsValue := by
  unfold Obligations.RegisterReadsValue
  intro s r answered
  have read {v : Reply} (h : s.readReg r = s.answer v) : answered v := congrArg Host.Outcome.next h
  refine ⟨?segGroup, ?segMode, ?segDone, ?segErr, ?decMode, ?decDone, ?decErr, ?decFields, ?decNpkt,
    ?acc, ?bounds, ?accFailed, ?boundsFailed, _, rfl, readReg_frame s r⟩
  case segGroup => rintro rfl; exact read rfl
  case segMode => rintro rfl; exact read (by rw [← segMode_bit]; rfl)
  case segDone => rintro rfl; refine read ?_; cases h : s.seg.done <;> simp [State.readReg, h]
  case segErr =>
    rintro rfl
    refine read ?_
    cases h : s.seg.err with
    | none => simp [State.readReg, h, errCode]
    | some e => cases e <;> simp [State.readReg, h, errCode, ErrKind.code]
  case decMode => rintro rfl; exact read (by rw [← decMode_bit]; rfl)
  case decDone => rintro rfl; refine read ?_; cases h : s.dec.done <;> simp [State.readReg, h]
  case decErr =>
    rintro rfl
    refine read ?_
    cases h : s.dec.err with
    | none => simp [State.readReg, h, errCode]
    | some e => cases e <;> simp [State.readReg, h, errCode, ErrKind.code]
  case decFields => rintro rfl; exact read rfl
  case decNpkt => rintro rfl; exact read rfl
  case acc => rintro rfl he hm; exact read (readAcc_of_idle he hm)
  case bounds => rintro rfl he hm; exact read (readBounds_of_idle he hm)
  case accFailed => rintro rfl he; exact read (readAcc_of_failed he)
  case boundsFailed => rintro rfl he; exact read (readBounds_of_failed he)

end Sys2Proof.Machine
end

section
/-! PROOFS. The invariant of the machine: it holds after reset, each change of SEG and of DEC keeps
it, so every step does (O45, O46); and what it rules out (O47, O57). -/

namespace Sys2Proof.Machine

/-! ### Bounds -/

/-- A count below its bound has room for one more. -/
theorem within_succ_of_not_reached {bound : Option Nat} {n : Nat}
    (h : Params.reached bound n = false) : Params.within bound (n + 1) = true := by
  cases bound with
  | none => rfl
  | some m => simpa [Params.reached, Params.within] using h

/-- What is below a number within a bound is within it. -/
theorem within_mono {bound : Option Nat} {m n : Nat} (h : m ≤ n)
    (hn : Params.within bound n = true) : Params.within bound m = true := by
  cases bound with
  | none => rfl
  | some k => exact decide_eq_true (h.trans (of_decide_eq_true hn))

/-- A number with another above it and within the bound has not reached it. -/
theorem not_reached_of_within {bound : Option Nat} {m n : Nat} (h : m < n)
    (hn : Params.within bound n = true) : Params.reached bound m = false := by
  cases bound with
  | none => rfl
  | some k => exact decide_eq_false (Nat.not_le.mpr (h.trans_le (of_decide_eq_true hn)))

/-! ### The changes of SEG keep its invariant -/

/-- The chunk an emit reads: `n` bytes of the buffer, all of them inside it (R31). -/
theorem memRead_some {s : State} {i n : Nat} {chunk : List Byte} (h : s.memRead i n = some chunk) :
    chunk.length = n ∧ i + n ≤ s.seg.len := by
  simp only [State.memRead, Option.ite_none_right_eq_some, Option.some.injEq] at h
  obtain ⟨⟨hlen, hbuf⟩, rfl⟩ := h
  exact ⟨by rw [subseq_length _ hbuf, Nat.add_sub_cancel_left], hlen⟩

/-- A chunk packed with the status and the count of R68 and R69 has the form of R59. -/
theorem emittedForm_of_rules (group : Nibble) (isFirst : Bool) {remaining : Nat}
    {chunk : List Byte} (h0 : 0 < remaining) (hlen : chunk.length = countOf remaining) :
    emittedForm (pack group (statusOf isFirst remaining) chunk) = true := by
  refine emittedForm_pack _ _ _ ?one ?six (statusOf_le isFirst remaining) fun hs => ?full
  case one => rw [hlen]; exact countOf_pos h0
  case six => rw [hlen]; exact countOf_le remaining
  case full => rw [hlen]; exact Nat.min_eq_right (statusOf_full hs).le

/-- An emit that does not end the message takes 6 bytes (R69). -/
theorem countOf_of_more {g : SegState} (hle : g.pos ≤ g.len)
    (hmore : g.pos + countOf g.remaining ≠ g.len) : countOf g.remaining = 6 := by
  have hr : g.remaining = g.len - g.pos := rfl
  simp only [countOf, Config.chunk] at hmore ⊢
  omega

/-- `SEG.EMIT` keeps the invariant of SEG: it reads inside the buffer, and either ends the message
or moves on by a whole packet of 6. -/
theorem SegState.Inv.emitted {s : State} (h : s.seg.Inv s.params) (hready : s.emits)
    (hleft : s.seg.remaining ≠ 0) {chunk : List Byte}
    (hread : s.memRead s.seg.pos (countOf s.seg.remaining) = some chunk) :
    (s.seg.emitted (statusOf s.seg.first s.seg.remaining) (countOf s.seg.remaining) chunk).Inv
      s.params := by
  obtain ⟨hrun, hroom⟩ := hready
  obtain ⟨hchunk, hend⟩ := memRead_some hread
  have hcount : 0 < countOf s.seg.remaining := countOf_pos (Nat.pos_of_ne_zero hleft)
  have hform := emittedForm_of_rules s.seg.grpL s.seg.first (Nat.pos_of_ne_zero hleft) hchunk
  have hdepth (q : Packet) : Params.within s.params.txqDepth (s.seg.txq ++ [q]).length = true := by
    rw [List.length_append]; exact within_succ_of_not_reached hroom
  have hforms : ∀ q ∈ s.seg.txq ++ [pack s.seg.grpL (statusOf s.seg.first s.seg.remaining) chunk],
      emittedForm q = true := by
    simpa only [List.forall_mem_append, List.forall_mem_singleton] using ⟨h.txq_form, hform⟩
  by_cases hlast : s.seg.pos + countOf s.seg.remaining = s.seg.len
  · rw [emitted_last hlast]
    exact { len_buf := h.len_buf, pos_le := le_rfl, run_left := nofun, idle_packed := fun _ => rfl
            first_iff := nofun, pos_six := nofun, run_none := nofun, result_value := nofun
            err_kind := .inl rfl, len_max := h.len_max, txq_depth := hdepth _, txq_form := hforms }
  · have hsix := countOf_of_more h.pos_le hlast
    rw [emitted_more hlast]
    exact { len_buf := h.len_buf
            pos_le := hend
            run_left := fun _ => lt_of_le_of_ne hend hlast
            idle_packed := fun hidle => (nomatch hrun.symm.trans hidle)
            first_iff := fun _ =>
              ⟨nofun, fun hzero => absurd hzero (Nat.add_pos_right _ hcount).ne'⟩
            pos_six := fun _ => by
              have := h.pos_six hrun
              simp only [hsix]; omega
            run_none := fun _ => h.run_none hrun
            result_value := h.result_value
            err_kind := h.err_kind
            len_max := h.len_max, txq_depth := hdepth _, txq_form := hforms }

/-- An accepted message keeps the invariant of SEG: it has a byte left and nothing packed (R82). -/
theorem SegState.Inv.accepted {p : Params} {g : SegState} (h : g.Inv p) {bytes : List Byte}
    (hb : bytes ≠ []) (hfits : Params.within p.maxLen bytes.length = true) :
    (g.accepted bytes).Inv p where
  len_buf := rfl
  pos_le := Nat.zero_le _
  run_left _ := one_le_length_strip hb
  idle_packed := nofun
  first_iff _ := ⟨fun _ => rfl, fun _ => rfl⟩
  pos_six _ := rfl
  run_none _ := rfl
  result_value _ := rfl
  err_kind := .inl rfl
  len_max := within_mono (strip_length_le bytes).1 hfits
  txq_depth := h.txq_depth
  txq_form := h.txq_form

/-- The error of an empty submission keeps the invariant of an idle SEG (R82). -/
theorem SegState.Inv.raised {p : Params} {g : SegState} (h : g.Inv p) (hidle : g.mode = .idle) :
    (g.raise .emptyPayload).Inv p :=
  { h with
    run_none := fun hrun => (nomatch hidle.symm.trans hrun)
    result_value := nofun
    err_kind := .inr rfl }

/-- A pop keeps the invariant of SEG: the packets left were in the queue before (R88). -/
theorem SegState.Inv.popped {p : Params} {g : SegState} (h : g.Inv p) {q : Packet}
    {left : List Packet} (hq : g.txq = q :: left) : ({ g with txq := left } : SegState).Inv p :=
  { h with
    txq_depth := within_mono (by rw [hq]; exact Nat.le_succ _) h.txq_depth
    txq_form := fun r hr => h.txq_form r (by rw [hq]; exact List.mem_cons_of_mem q hr) }

/-- The reset state of SEG meets its invariant (R29). -/
theorem SegState.inv_reset (p : Params) : SegState.reset.Inv p where
  len_buf := rfl
  pos_le := le_rfl
  run_left := nofun
  idle_packed _ := rfl
  first_iff := nofun
  pos_six := nofun
  run_none := nofun
  result_value _ := rfl
  err_kind := .inl rfl
  len_max := within_zero _
  txq_depth := within_zero _
  txq_form := nofun

/-- Every change of SEG keeps its invariant. -/
theorem SegChange.keeps_inv {s t : State} (c : SegChange s t) (h : s.seg.Inv s.params) :
    t.seg.Inv s.params := by
  cases c with
  | same eq => rwa [eq]
  | emit _ ready left chunk read eq => rw [eq]; exact h.emitted ready left read
  | setGroup group rest _ eq => rw [eq]; exact { h with }
  | submitEmpty rest _ idle eq => rw [eq]; exact h.raised idle
  | submit bytes rest _ _ nonempty fits eq => rw [eq]; exact h.accepted nonempty fits
  | pop q left rest _ queue eq => rw [eq]; exact h.popped queue
  | reset rest _ eq => rw [eq]; exact SegState.inv_reset s.params

/-! ### The changes of DEC keep its invariant -/

/-- The state of DEC after a reset meets its invariant (R29). -/
theorem DecState.inv_reset (p : Params) : DecState.reset.Inv p where
  idle_inrun _ := rfl
  open_done := nofun
  err_empty h := absurd rfl h
  err_kind := nofun
  bounds_sorted := .nil
  bounds_le := nofun
  acc_closed _ _ := rfl
  acc_size := le_rfl
  bounds_size := le_rfl
  npkt_max := within_zero _

/-- So does a freshly opened call (R101). -/
theorem DecState.inv_fresh (p : Params) : DecState.fresh.Inv p :=
  { DecState.inv_reset p with idle_inrun := fun _ => rfl, open_done := fun _ => rfl }

/-- Counting a packet where there is room keeps the invariant of DEC (R102). -/
theorem DecState.Inv.counted {p : Params} {d : DecState} (h : d.Inv p)
    (hroom : Params.reached p.maxPkts d.npkt = false) : d.counted.Inv p :=
  { h with
    acc_size := h.acc_size.trans (Nat.mul_le_mul_left 6 (Nat.le_succ _))
    bounds_size := h.bounds_size.trans (Nat.le_succ _)
    npkt_max := within_succ_of_not_reached hroom }

/-- A failed call with no data keeps the invariant of DEC (R102). -/
theorem DecState.Inv.raised {p : Params} {d : DecState} (h : d.Inv p) {e : ErrKind}
    (he : e ≠ .emptyPayload) : (d.raise e).Inv p where
  idle_inrun _ := rfl
  open_done := h.open_done
  err_empty _ := ⟨rfl, rfl, rfl⟩
  err_kind heq := he (Option.some.inj heq)
  bounds_sorted := .nil
  bounds_le := nofun
  acc_closed := nofun
  acc_size := Nat.zero_le _
  bounds_size := Nat.zero_le _
  npkt_max := h.npkt_max

/-- The boundaries stay sorted and within `DEC.ACC` when one is added at its new end (R24). -/
theorem bounds_closeAt {bounds : List Nat} {n k : Nat} (hs : bounds.Pairwise (· ≤ ·))
    (hle : ∀ b ∈ bounds, b ≤ n) :
    (bounds ++ [n + k]).Pairwise (· ≤ ·) ∧ ∀ b ∈ bounds ++ [n + k], b ≤ n + k := by
  have hle' : ∀ b ∈ bounds, b ≤ n + k := fun b hb => (hle b hb).trans (Nat.le_add_right n k)
  refine ⟨List.pairwise_append.mpr ⟨hs, List.pairwise_singleton _ _, ?_⟩, ?_⟩
  · simpa only [List.forall_mem_singleton] using hle'
  · simpa only [List.forall_mem_append, List.forall_mem_singleton, le_refl, and_true] using hle'

/-- A packet whose bytes are taken keeps the invariant of DEC: it is counted and recorded, and
closes a message at the new end of `DEC.ACC` exactly where it leaves no run open (R105 to R108). -/
theorem DecState.Inv.grown {p : Params} {d : DecState} (h : d.Inv p) (hopened : d.mode = .opened)
    (herr : d.err = none) (hroom : Params.reached p.maxPkts d.npkt = false) {bytes : List Byte}
    (hsize : bytes.length ≤ 6) (head : BitVec 16) {bounds : List Nat} {inrun : Bool}
    (hbounds : (inrun = true ∧ bounds = d.bounds)
      ∨ (inrun = false ∧ bounds = d.bounds ++ [d.acc.length + bytes.length])) :
    ({ d with npkt := d.npkt + 1, fields := head, acc := d.acc ++ bytes, bounds, inrun } :
      DecState).Inv p := by
  have hlen : (d.acc ++ bytes).length = d.acc.length + bytes.length := List.length_append
  have hacc := h.acc_size
  have hnum := h.bounds_size
  obtain ⟨hsorted, hwithin, hclosed, hcount⟩ : bounds.Pairwise (· ≤ ·)
      ∧ (∀ b ∈ bounds, b ≤ d.acc.length + bytes.length)
      ∧ (inrun = false → d.acc.length + bytes.length = bounds.getLastD 0)
      ∧ bounds.length ≤ d.bounds.length + 1 := by
    rcases hbounds with ⟨rfl, rfl⟩ | ⟨rfl, rfl⟩
    · exact ⟨h.bounds_sorted, fun b hb => (h.bounds_le b hb).trans (Nat.le_add_right _ _), nofun,
        Nat.le_succ _⟩
    · obtain ⟨hs, hw⟩ := bounds_closeAt (k := bytes.length) h.bounds_sorted h.bounds_le
      exact ⟨hs, hw, fun _ => List.getLastD_concat.symm, List.length_append.le⟩
  exact { idle_inrun := fun hidle => (nomatch hopened.symm.trans hidle)
          open_done := h.open_done
          err_empty := fun hne => absurd herr hne
          err_kind := h.err_kind
          bounds_sorted := hsorted
          bounds_le := fun b hb => (hwithin b hb).trans hlen.ge
          acc_closed := fun _ hrun => hlen.trans (hclosed hrun)
          acc_size := by rw [hlen]; dsimp only; omega
          bounds_size := by dsimp only; omega
          npkt_max := within_succ_of_not_reached hroom }

/-- A packet that is looked at keeps the invariant of DEC. -/
theorem BodyEffect.keeps_inv {p : Params} {d e : DecState} {head : BitVec 16}
    (c : BodyEffect (d.counted.recorded head) e) (h : d.Inv p) (hopened : d.mode = .opened)
    (hroom : Params.reached p.maxPkts d.npkt = false) (herr : d.err = none) : e.Inv p := by
  cases c with
  | failed err herr eq =>
    have hrecorded : (d.counted.recorded head).Inv p := { h.counted hroom with }
    rw [eq]; exact hrecorded.raised herr
  | one bytes size closed eq =>
    subst eq; exact h.grown hopened herr hroom size head (.inr ⟨closed, rfl⟩)
  | start bytes size _ eq =>
    subst eq; exact h.grown hopened herr hroom size head (.inl ⟨rfl, rfl⟩)
  | cont bytes size opened eq =>
    subst eq; exact h.grown hopened herr hroom size head (.inl ⟨opened, rfl⟩)
  | last bytes size _ eq =>
    subst eq; exact h.grown hopened herr hroom size head (.inr ⟨rfl, rfl⟩)

/-- The end of a call with no run open keeps the invariant of DEC (R112). -/
theorem DecState.Inv.ended {p : Params} {d : DecState} (h : d.Inv p) (hrun : d.inrun = false) :
    d.ended.Inv p :=
  { h with idle_inrun := fun _ => hrun, open_done := nofun }

/-- `DEC.END` keeps the invariant of DEC: an open run is an error first (R112). -/
theorem DecState.Inv.closed {p : Params} {d : DecState} (h : d.Inv p) : d.closed.Inv p := by
  cases hrun : d.inrun with
  | false => rw [closed_of_no_run hrun]; exact h.ended hrun
  | true =>
    have herr : d.err = none := by
      by_contra hne
      obtain ⟨-, -, hno⟩ := h.err_empty hne
      cases hrun.symm.trans hno
    rw [closed_of_open_run herr hrun]
    exact (h.raised (by decide)).ended rfl

/-- Every change of DEC keeps its invariant. -/
theorem DecChange.keeps_inv {s t : State} (c : DecChange s t) (h : s.dec.Inv s.params) :
    t.dec.Inv s.params := by
  cases c with
  | same eq => rwa [eq]
  | begin rest _ eq => rw [eq]; exact DecState.inv_fresh s.params
  | counted p rest _ room _ eq => rw [eq]; exact h.counted room
  | taken p rest _ examined effect =>
    obtain ⟨hopened, hroom, herr⟩ := examined
    exact effect.keeps_inv h hopened hroom herr
  | closed rest _ _ eq => rw [eq]; exact h.closed
  | reset rest _ eq => rw [eq]; exact DecState.inv_reset s.params

/-! ### The machine -/

/-- Every step keeps the invariant, as each unit's change keeps that unit's. -/
theorem step_keeps_inv {s t : State} (h : s.Inv) (hstep : step s = .next t) : t.Inv := by
  have hparams := step_params hstep
  exact { params := by rw [hparams]; exact h.params
          seg := by rw [hparams]; exact (step_segChange hstep).keeps_inv h.seg
          dec := by rw [hparams]; exact (step_decChange hstep).keeps_inv h.dec }

/-- Settles O46, by `SegChange.keeps_inv` and `DecChange.keeps_inv`: one lemma per change of a
unit. -/
theorem stepKeepsInv : Obligations.StepKeepsInv := by
  unfold Obligations.StepKeepsInv
  exact fun s t h hstep => step_keeps_inv h hstep

/-- Settles O45: the reset states of the two units meet their invariants under any parameters. -/
theorem resetMeetsInv : Obligations.ResetMeetsInv := by
  unfold Obligations.ResetMeetsInv
  exact fun p hp => { params := hp, seg := SegState.inv_reset p, dec := DecState.inv_reset p }

/-- No host command faults: only `SEG.EMIT` can, by the spec (R125). -/
theorem command_ne_fault (s : State) (c : HostCmd) (r : Fault) : s.command c ≠ .fault r := by
  intro h
  cases c with
  | setGroup group => cases h
  | submit bytes =>
    rcases segSubmit_cases s bytes with ⟨-, he⟩ | ⟨-, -, he⟩ | ⟨-, -, he⟩ | ⟨-, -, -, he⟩ <;>
      cases he.symm.trans h
  | pop => rcases segPop_cases s with ⟨-, he⟩ | ⟨p, rest, -, he⟩ <;> cases he.symm.trans h
  | decBegin => rcases decBegin_cases s with ⟨-, he⟩ | ⟨-, he⟩ <;> cases he.symm.trans h
  | decPkt p =>
    rcases exec_cases (decode p) s with ⟨_, he⟩ | ⟨-, -, -, he⟩ | ⟨-, e, he, -⟩ <;>
      cases he.symm.trans h
  | decEnd => rcases decEnd_cases s with ⟨-, he⟩ | ⟨-, he⟩ <;> cases he.symm.trans h
  | readReg q => cases h
  | reset => cases h

/-- Settles O47: a command does not fault, and the emit of a running message has a byte to pack and
reads it inside the buffer (`segEmit_of_inv`). -/
theorem stepNeverFaults : Obligations.StepNeverFaults := by
  unfold Obligations.StepNeverFaults
  intro s h r hstep
  rcases step_cases s with ⟨-, he⟩ | ⟨-, hready, he⟩ | ⟨c, rest, -, -, he⟩
  · cases he.symm.trans hstep
  · obtain ⟨hrun, -⟩ := (emitReady_iff s).mp hready
    have hinv : s.spendTurn.seg.Inv s.spendTurn.params := by simpa using h.seg
    rw [he, segEmit_of_inv hinv (by simpa using hrun)] at hstep
    cases hstep
  · exact command_ne_fault _ c r (he.symm.trans hstep)

/-- Settles O57: `SEG.POS ≤ SEG.LEN ≤ MAX_LEN < 2 ^ LW`, the last by the definition of `LW`. -/
theorem lengthsFitTheirWidth : Obligations.LengthsFitTheirWidth := by
  unfold Obligations.LengthsFitTheirWidth
  intro s w h hw
  obtain ⟨m, hm, rfl⟩ := Option.map_eq_some_iff.mp hw
  have hmax := h.seg.len_max
  rw [hm] at hmax
  have hlen : s.seg.len ≤ m := of_decide_eq_true hmax
  have hpow : m + 1 ≤ 2 ^ Nat.clog 2 (m + 1) := Nat.le_pow_clog (by decide) _
  have hfits : s.seg.len < 2 ^ Nat.clog 2 (m + 1) := (Nat.lt_succ_of_le hlen).trans_le hpow
  exact ⟨hfits, h.seg.pos_le.trans_lt hfits⟩

end Sys2Proof.Machine
end

section
/-! PROOFS. The length of a stripped message (R67), and what `segment` gives (R59, R89, R90). -/

namespace Sys2Proof.Machine

/-! ### The length of a stripped message -/

/-- Settles O10: at most one byte goes at each end (`strip_length_le`), and none of an input of at
most 3 bytes (`strip_short`). -/
theorem stripLengthBounds : Obligations.StripLengthBounds := by
  unfold Obligations.StripLengthBounds
  intro bytes
  obtain ⟨hle, hge⟩ := strip_length_le bytes
  refine ⟨fun h => ⟨hge, hle, by omega⟩, fun h => by rw [strip_short h], fun hne => ?_⟩
  exact List.length_pos_iff.mp (one_le_length_strip hne)

/-! ### The packets of a message, each by its place -/

/-- Packet `k` of those that `segment` packs from byte `pos` of `p` on, `isFirst` saying whether the
message begins there (R90 (b) to (d)). -/
def segmentPacket (group : Nibble) (p : List Byte) (pos : Nat) (isFirst : Bool) (k : Nat) :
    Packet :=
  pack group (statusOf (isFirst && k == 0) (p.length - (pos + 6 * k)))
    (subseq p (pos + 6 * k) (min (pos + 6 * k + 6) p.length))

/-- The packets after the first are those from 6 bytes further on. -/
theorem segmentPacket_succ (group : Nibble) (p : List Byte) (pos : Nat) (isFirst : Bool) (k : Nat) :
    segmentPacket group p pos isFirst (k + 1) = segmentPacket group p (pos + 6) false k := by
  have hpos : pos + 6 * (k + 1) = pos + 6 + 6 * k := by omega
  have hnext : (k + 1 == 0) = false := rfl
  rw [segmentPacket, segmentPacket, hpos, hnext, Bool.and_false, Bool.false_and]

/-- The loop of `segment` packs one packet for every 6 bytes left, the last of them of 1 to 6 bytes:
the packet in front, and those of the loop from 6 bytes further on (R90 (a)). -/
theorem segmentLoop_eq_map (group : Nibble) (p : List Byte) (fuel : Nat) {pos : Nat}
    (hfuel : p.length ≤ pos + fuel) (isFirst : Bool) :
    segmentLoop group p fuel pos isFirst
      = (List.range ((p.length - pos + 5) / 6)).map (segmentPacket group p pos isFirst) := by
  induction fuel generalizing pos isFirst with
  | zero =>
    have hnone : (p.length - pos + 5) / 6 = 0 := by omega
    rw [hnone]; rfl
  | succ fuel ih =>
    by_cases hlt : pos < p.length
    · have hcount : (p.length - pos + 5) / 6 = (p.length - (pos + 6) + 5) / 6 + 1 := by omega
      have hchunk : pos + min (p.length - pos) 6 = min (pos + 6) p.length := by omega
      have hhead : pack group (statusOf isFirst (p.length - pos))
          (subseq p pos (pos + min (p.length - pos) 6)) = segmentPacket group p pos isFirst 0 := by
        simp only [segmentPacket, hchunk, Nat.mul_zero, Nat.add_zero, beq_self_eq_true,
          Bool.and_true]
      have htail : segmentLoop group p fuel (pos + min (p.length - pos) 6) false
          = segmentLoop group p fuel (pos + 6) false := by
        by_cases hmore : pos + 6 ≤ p.length
        · rw [hchunk, Nat.min_eq_left hmore]
        · rw [segmentLoop_done group (by omega), segmentLoop_done group (by omega)]
      rw [hcount, List.range_succ_eq_map, List.map_cons, List.map_map, ← hhead]
      simp only [segmentLoop, if_pos hlt, htail]
      rw [ih (by omega) false]
      simp only [Function.comp_def, segmentPacket_succ]
    · have hnone : (p.length - pos + 5) / 6 = 0 := by omega
      rw [segmentLoop_done group (Nat.le_of_not_lt hlt), hnone]
      rfl

/-- What `segment` gives for a non-empty message. -/
theorem segment_eq_map {bytes : List Byte} (h : bytes ≠ []) (group : Nibble) :
    segment group bytes
      = .ok ((List.range (((strip bytes).length + 5) / 6)).map
          (segmentPacket group (strip bytes) 0 true)) := by
  rw [segment_of_ne_nil h, segmentLoop_eq_map group (strip bytes) _ (Nat.zero_add _).ge]
  rfl

/-- Packet `k` of a message holds bytes `6k` to `6k + 6` of the payload, or what is left of them. -/
theorem segmentPacket_chunk_length {p : List Byte} {k : Nat} (hk : k < (p.length + 5) / 6) :
    (subseq p (0 + 6 * k) (min (0 + 6 * k + 6) p.length)).length
      = countOf (p.length - (0 + 6 * k)) := by
  rw [subseq_length _ (Nat.min_le_right _ _), countOf, Config.chunk]
  omega

/-- The status of packet `k` of a message by its place (R90 (c), (d)). -/
theorem segmentPacket_status {L k : Nat} (hk : k < (L + 5) / 6) :
    statusOf (true && k == 0) (L - (0 + 6 * k))
      = if L ≤ 6 then 0#4 else if k = 0 then 1#4 else if k + 1 = (L + 5) / 6 then 3#4 else 2#4 := by
  by_cases hle : L ≤ 6
  · obtain rfl : k = 0 := by omega
    rw [statusOf_of_le (by omega)]; simp [hle]
  · by_cases hzero : k = 0
    · subst hzero; rw [statusOf_of_lt (by omega)]; simp [hle]
    · by_cases hlast : k + 1 = (L + 5) / 6
      · rw [statusOf_of_le (by omega)]; simp [hle, hzero, hlast]
      · rw [statusOf_of_lt (by omega)]; simp [hle, hzero, hlast]

/-- The valid bytes of packet `k` are its chunk. -/
theorem payloadOf_segmentPacket (group : Nibble) {p : List Byte} {k : Nat}
    (hk : k < (p.length + 5) / 6) :
    payloadOf (segmentPacket group p 0 true k)
        (unpack (segmentPacket group p 0 true k).word0).count.toNat
      = subseq p (6 * k) (min (6 * k + 6) p.length) := by
  have hlen := segmentPacket_chunk_length hk
  have hsix := countOf_le (p.length - (0 + 6 * k))
  rw [segmentPacket, unpack_pack, toNat_count (hlen.trans_le hsix),
    payloadOf_pack _ _ _ rfl (hlen.trans_le hsix), Nat.zero_add]

/-- The chunks of the first `m` packets join up to the front of the payload. -/
theorem flatten_chunks (p : List Byte) (m : Nat) :
    ((List.range m).map fun k => subseq p (6 * k) (min (6 * k + 6) p.length)).flatten
      = subseq p 0 (min (6 * m) p.length) := by
  induction m with
  | zero => simp [subseq]
  | succ m ih =>
    rw [List.range_succ, List.map_append, List.flatten_append, ih]
    simp only [List.map_cons, List.map_nil, List.flatten_cons, List.flatten_nil, List.append_nil]
    by_cases hle : 6 * m ≤ p.length
    · rw [Nat.min_eq_left hle, subseq_append p (Nat.zero_le _) (by omega)]
      rfl
    · have hempty : subseq p (6 * m) (min (6 * m + 6) p.length) = [] := by
        rw [← List.length_eq_zero_iff, subseq_length _ (Nat.min_le_right _ _)]; omega
      rw [hempty, List.append_nil]
      congr 1; omega

/-- Settles O20: `segment_eq_map` gives the packets by their place, and their chunks join up to the
whole payload. -/
theorem segmentShape : Obligations.SegmentShape := by
  unfold Obligations.SegmentShape
  intro group bytes hne
  refine ⟨_, segment_eq_map hne group, by rw [List.length_map, List.length_range],
    fun k hk => ?packet, ?payload⟩
  case packet =>
    rw [List.length_map, List.length_range] at hk ⊢
    rw [List.getElem?_map, List.getElem?_range hk, Option.map_some, segmentPacket,
      segmentPacket_status hk, Nat.zero_add]
  case payload =>
    have hchunks : ∀ k ∈ List.range (((strip bytes).length + 5) / 6), _ := fun k hk =>
      payloadOf_segmentPacket group (p := strip bytes) (List.mem_range.mp hk)
    rw [List.map_map, Function.comp_def, List.map_congr_left hchunks, flatten_chunks,
      Nat.min_eq_right (by omega), subseq_all]

/-- Settles O21: packet `k` is packed by the rules of status and count from a byte of the payload
on. -/
theorem segmentEmitsOnlyForm : Obligations.SegmentEmitsOnlyForm := by
  unfold Obligations.SegmentEmitsOnlyForm
  intro group bytes out hout q hq
  have hne : bytes ≠ [] := by rintro rfl; cases hout
  cases (segment_eq_map hne group).symm.trans hout
  obtain ⟨k, hk, rfl⟩ := List.mem_map.mp hq
  have hk := List.mem_range.mp hk
  refine ⟨?form, by rw [segmentPacket, unpack_pack]⟩
  case form =>
    exact emittedForm_of_rules group (true && k == 0) (by omega) (segmentPacket_chunk_length hk)

end Sys2Proof.Machine
end

section
/-! PROOFS. The step machine of SEG: when it steps and when it waits (R87), the commands that wait
(R88, R91), and its agreement with `segment` (R92). -/

namespace Sys2Proof.Machine

/-! ### When SEG steps and when it waits -/

/-- A SEG that is not ready waits where every command of the host is held. -/
theorem step_of_held {s : State} (hpick : s.pickReady s.port.inbox = none)
    (hr : s.emitReady = false) : step s = .next s :=
  step_of_wait (by simp [State.choose, hpick, hr])

/-- A ready SEG emits where every command of the host is held, and no turn is asked for. -/
theorem step_of_ready {s : State} (hpick : s.pickReady s.port.inbox = none)
    (hr : s.emitReady = true) : step s = s.segEmit := by
  have hturn : s.spendTurn = s := by simp [State.spendTurn, hpick]
  rw [step_of_emit (by simp [State.choose, hpick, hr]), hturn]

/-- Nothing is picked from an empty inbox. -/
theorem pickReady_nil (s : State) : s.pickReady [] = none := rfl

/-- Nothing is picked where the one command waiting is held. -/
theorem pickReady_held {s : State} {c : HostCmd} (h : s.held c = true) :
    s.pickReady [c] = none := by
  simp [State.pickReady, h]

/-- An idle SEG is not ready. -/
theorem emitReady_of_idle {s : State} (h : s.seg.mode = .idle) : s.emitReady = false := by
  simp only [State.emitReady, h]; rfl

/-- A picked command is taken where SEG is not ready. -/
theorem choose_of_pick {s : State} {c : HostCmd} {rest : List HostCmd}
    (hpick : s.pickReady s.port.inbox = some (c, rest)) (hr : s.emitReady = false) :
    s.choose = .take c rest := by
  simp [State.choose, hpick, hr]

/-- Fetching asks for no turn where SEG is not ready. -/
theorem fetched_of_not_ready {s : State} (hr : s.emitReady = false) (rest : List HostCmd) :
    s.fetched rest = s.setPort { s.port with inbox := rest } := by
  have hturn : s.spendTurn = s := by simp [State.spendTurn, hr]
  rw [State.fetched, hturn]

/-- What an emit of a running message does to it: it packs the next `min(R, 6)` bytes and is over
exactly when all are packed (R93). -/
structure EmitProgress (s t : State) : Prop where
  /-- `SEG.POS` moves by the size of the packet. -/
  pos_eq : t.seg.pos = s.seg.pos + min s.seg.remaining 6
  /-- At least one byte is packed. -/
  pos_lt : s.seg.pos < t.seg.pos
  /-- No byte past the end is. -/
  pos_le : t.seg.pos ≤ t.seg.len
  /-- The message stays as long as it was. -/
  len_eq : t.seg.len = s.seg.len
  /-- One packet is pushed. -/
  txq_length : t.seg.txq.length = s.seg.txq.length + 1
  /-- The message is over exactly at its end. -/
  idle_iff : t.seg.mode = .idle ↔ t.seg.pos = t.seg.len
  /-- DEC is left alone. -/
  dec_eq : t.dec = s.dec
  /-- So is the host's side. -/
  port_eq : t.port = s.port
  /-- And the parameters. -/
  params_eq : t.params = s.params

/-- Under the invariant the emit of a running message makes progress. -/
theorem segEmit_progress {s : State} (h : s.Inv) (hrun : s.seg.mode = .run) :
    ∃ t, s.segEmit = .next t ∧ EmitProgress s t := by
  refine ⟨_, segEmit_of_inv h.seg hrun, ?_⟩
  obtain ⟨-, -, -, hlen, hpos, -, htxq, hend, hgo⟩ := emitted_fields s.seg
    (statusOf s.seg.first s.seg.remaining) (countOf s.seg.remaining)
    (subseq s.seg.buf s.seg.pos (s.seg.pos + countOf s.seg.remaining))
  have hleft := one_le_remaining h hrun
  have hcount := countOf_pos hleft
  have hle := countOf_le_left s.seg.remaining
  have hr : s.seg.remaining = s.seg.len - s.seg.pos := rfl
  refine ⟨hpos, ?lt, ?le, hlen, ?txq, ?idle, rfl, rfl, rfl⟩ <;> rw [State.setSeg_seg]
  case lt => rw [hpos]; exact Nat.lt_add_of_pos_right hcount
  case le => rw [hpos, hlen]; omega
  case txq => rw [htxq, List.length_append]; rfl
  case idle =>
    rw [hpos, hlen]
    by_cases hlast : s.seg.pos + countOf s.seg.remaining = s.seg.len
    · obtain ⟨hidle, -⟩ := hend hlast
      exact iff_of_true hidle hlast
    · obtain ⟨hmode, -⟩ := hgo hlast
      exact iff_of_false (fun hidle => nomatch (hmode.trans hrun).symm.trans hidle) hlast

/-- Settles O18: with no command to pick SEG waits or emits by `State.emitReady` alone. -/
theorem emitsOrHolds : Obligations.EmitsOrHolds := by
  unfold Obligations.EmitsOrHolds
  intro s h hinbox
  have hpick : s.pickReady s.port.inbox = none := by rw [hinbox]; exact pickReady_nil s
  refine ⟨fun hidle => step_of_held hpick (emitReady_of_idle hidle), fun hrun hfull => ?full,
    fun hemits => ?emits⟩
  case full => exact step_of_held hpick (by simp [State.emitReady, hfull])
  case emits =>
    obtain ⟨t, ht, hprog⟩ := segEmit_progress h hemits.1
    refine ⟨t, (step_of_ready hpick ((emitReady_iff s).mpr hemits)).trans ht, ?_⟩
    exact ⟨hprog.pos_eq, hprog.pos_lt, hprog.pos_le, hprog.len_eq, hprog.txq_length, hprog.idle_iff,
      hprog.dec_eq, hprog.port_eq, hprog.params_eq⟩

/-! ### The commands that wait -/

/-- Nothing but a submission to an idle SEG, and the reset, replaces the message (R91). -/
theorem SegChange.keeps_message {s t : State} (c : SegChange s t) (hrun : s.seg.mode = .run) :
    (t.seg.buf = s.seg.buf ∧ t.seg.len = s.seg.len ∧ t.seg.grpL = s.seg.grpL)
    ∨ ∃ left, s.choose = .take .reset left := by
  cases c with
  | same eq => rw [eq]; exact .inl ⟨rfl, rfl, rfl⟩
  | emit _ _ _ chunk _ eq =>
    obtain ⟨-, hgrpL, hbuf, hlen, -⟩ := emitted_fields s.seg
      (statusOf s.seg.first s.seg.remaining) (countOf s.seg.remaining) chunk
    rw [eq]; exact .inl ⟨hbuf, hlen, hgrpL⟩
  | setGroup group rest _ eq => rw [eq]; exact .inl ⟨rfl, rfl, rfl⟩
  | submitEmpty rest _ idle => cases hrun.symm.trans idle
  | submit bytes rest _ idle => cases hrun.symm.trans idle
  | pop p left rest _ _ eq => rw [eq]; exact .inl ⟨rfl, rfl, rfl⟩
  | reset rest chosen => exact .inr ⟨rest, chosen⟩

/-- A held command at the head of the inbox stays there over every step. -/
theorem step_keeps_held_head {s t : State} {c : HostCmd} {rest : List HostCmd}
    (hinbox : s.port.inbox = c :: rest) (hheld : s.held c = true) (h : step s = .next t) :
    ∃ left, t.port.inbox = c :: left := by
  rcases step_cases s with ⟨-, he⟩ | ⟨-, -, he⟩ | ⟨d, left, hd, -, -⟩
  · cases he.symm.trans h; exact ⟨rest, hinbox⟩
  · rw [he] at h
    obtain ⟨chunk, -, -, rfl⟩ := segEmit_next h
    exact ⟨rest, s.spendTurn_inbox.trans hinbox⟩
  · obtain ⟨hpick, hfree, -⟩ := choose_take hd
    obtain ⟨before, after, hsplit, hleft, -, -⟩ := pickReady_some hpick
    have htaken := step_take_inbox hd h
    rw [hinbox] at hsplit
    cases before with
    | nil =>
      cases hsplit
      cases hheld.symm.trans hfree
    | cons e before =>
      cases hsplit
      exact ⟨before ++ after, htaken.trans hleft⟩

/-- Settles O22: the submission is held while a message runs, so it stays at the head of the inbox
and is not what replaces the message; once SEG is idle it is the one that is picked. -/
theorem submitHeldWhileRunning : Obligations.SubmitHeldWhileRunning := by
  unfold Obligations.SubmitHeldWhileRunning
  intro s bytes rest hinbox
  refine ⟨fun hrun t ht => ?waits, fun hrest h hemits => ?emits, fun hidle => ?taken⟩
  case waits =>
    exact ⟨step_keeps_held_head hinbox ((held_submit s bytes).mpr hrun) ht,
      (step_segChange ht).keeps_message hrun⟩
  case emits =>
    have hpick : s.pickReady s.port.inbox = none := by
      rw [hinbox, hrest]; exact pickReady_held ((held_submit s bytes).mpr hemits.1)
    obtain ⟨t, ht, hprog⟩ := segEmit_progress h hemits.1
    exact ⟨t, (step_of_ready hpick ((emitReady_iff s).mpr hemits)).trans ht, hprog.pos_lt,
      hprog.pos_le, hprog.idle_iff⟩
  case taken =>
    have hfree : s.held (.submit bytes) = false := by simp only [State.held, hidle]; rfl
    have hpick : s.pickReady s.port.inbox = some (.submit bytes, rest) := by
      rw [hinbox]; exact pickReady_cons hfree
    exact step_of_take (choose_of_pick hpick (emitReady_of_idle hidle))

/-- A pop waits exactly on an empty queue (R88). -/
theorem held_pop (s : State) : s.held .pop = s.seg.txq.isEmpty := rfl

/-- Settles O23: the pop of a queue with a head is that head; on an empty queue it is held, and the
push of SEG's emit ends that. -/
theorem popTakesHead : Obligations.PopTakesHead := by
  unfold Obligations.PopTakesHead
  refine ⟨fun s p rest hq => ?head, fun s hq hinbox => ?waits⟩
  case head =>
    rcases segPop_cases s with ⟨hempty, -⟩ | ⟨p', rest', hq', he⟩
    · cases hq.symm.trans hempty
    · cases hq.symm.trans hq'; exact he
  case waits =>
    have hpick : s.pickReady s.port.inbox = none := by
      rw [hinbox]; exact pickReady_held (by rw [held_pop, hq]; rfl)
    refine ⟨step_of_held hpick, fun hready h => ?_⟩
    obtain ⟨t, ht, hprog⟩ := segEmit_progress h ((emitReady_iff s).mp hready).1
    refine ⟨t, (step_of_ready hpick hready).trans ht, hprog.port_eq, ?_⟩
    rw [held_pop, List.isEmpty_eq_false_iff]
    exact List.ne_nil_of_length_eq_add_one hprog.txq_length

/-! ### The machine and the function -/

/-- A run is its first step and the rest. -/
theorem run_succ_of_step {s t : State} (h : step s = .next t) (n : Nat) :
    Sys2Proof.core.run (n + 1) s = Sys2Proof.core.run n t := by
  have hcore : Sys2Proof.core.step s = .next t := h
  simp only [Host.Core.run, hcore]

/-- What SEG has done when a run of the machine has emitted the packets `out`. -/
structure Segmented (s t : State) (out : List Packet) : Prop where
  /-- The packets stand behind those of the queue. -/
  txq_eq : t.seg.txq = s.seg.txq ++ out
  /-- The message is over. -/
  idle : t.seg.mode = .idle
  /-- It was a success. -/
  result_ok : t.seg.result = .ok
  /-- The group register is unchanged. -/
  group_eq : t.seg.group = s.seg.group
  /-- DEC is left alone. -/
  dec_eq : t.dec = s.dec
  /-- So are the parameters. -/
  params_eq : t.params = s.params
  /-- And the host's side. -/
  port_eq : t.port = s.port

/-- A running message with no host command waiting and room in the queue: the machine emits the
packets of `segment`'s loop from `SEG.POS` on, one in each step. -/
theorem run_segmentLoop (fuel : Nat) {s : State} (h : s.Inv) (hrun : s.seg.mode = .run)
    (hinbox : s.port.inbox = []) (hfuel : s.seg.len ≤ s.seg.pos + fuel)
    (hroom : Params.within s.params.txqDepth (s.seg.txq.length
      + (segmentLoop s.seg.grpL s.seg.buf fuel s.seg.pos s.seg.first).length) = true) :
    ∃ t, Sys2Proof.core.run
          (segmentLoop s.seg.grpL s.seg.buf fuel s.seg.pos s.seg.first).length s = .next t
      ∧ Segmented s t (segmentLoop s.seg.grpL s.seg.buf fuel s.seg.pos s.seg.first) := by
  induction fuel generalizing s with
  | zero => have := h.seg.run_left hrun; omega
  | succ fuel ih =>
    have hlt : s.seg.pos < s.seg.buf.length := by rw [← h.seg.len_buf]; exact h.seg.run_left hrun
    have hloop : segmentLoop s.seg.grpL s.seg.buf (fuel + 1) s.seg.pos s.seg.first
        = pack s.seg.grpL (statusOf s.seg.first s.seg.remaining)
            (subseq s.seg.buf s.seg.pos (s.seg.pos + countOf s.seg.remaining))
          :: segmentLoop s.seg.grpL s.seg.buf fuel (s.seg.pos + countOf s.seg.remaining) false := by
      rw [SegState.remaining, h.seg.len_buf]
      simp only [segmentLoop, if_pos hlt, countOf, Config.chunk]
    rw [hloop, List.length_cons] at hroom ⊢
    have hemits : s.emits := ⟨hrun, not_reached_of_within (by omega) hroom⟩
    have hpick : s.pickReady s.port.inbox = none := by rw [hinbox]; exact pickReady_nil s
    have hstep := (step_of_ready hpick ((emitReady_iff s).mpr hemits)).trans
      (segEmit_of_inv h.seg hrun)
    rw [run_succ_of_step hstep]
    have hinv := step_keeps_inv h hstep
    by_cases hlast : s.seg.pos + countOf s.seg.remaining = s.seg.len
    · have hdone := segmentLoop_done s.seg.grpL (p := s.seg.buf)
        (h.seg.len_buf.symm.trans hlast.symm).le fuel false
      rw [emitted_last hlast, hdone]
      exact ⟨_, rfl, rfl, rfl, rfl, rfl, rfl, rfl, rfl⟩
    · rw [emitted_more hlast] at hinv ⊢
      have hcount := countOf_pos (one_le_remaining h hrun)
      obtain ⟨t, ht, hseg⟩ := ih hinv hrun hinbox
        (show s.seg.len ≤ s.seg.pos + countOf s.seg.remaining + fuel by omega)
        (by simpa [SegState.push, Nat.add_assoc, Nat.add_comm 1] using hroom)
      refine ⟨t, ht, ?_, hseg.idle, hseg.result_ok, hseg.group_eq, hseg.dec_eq,
        hseg.params_eq, hseg.port_eq⟩
      exact hseg.txq_eq.trans (List.append_assoc _ _ _)

/-- An idle SEG takes the submission that stands alone in the inbox. -/
theorem step_of_submit {s : State} {bytes : List Byte} (hidle : s.seg.mode = .idle)
    (hinbox : s.port.inbox = [.submit bytes]) :
    step s = (s.setPort { s.port with inbox := [] }).segSubmit bytes := by
  have hfree : s.held (.submit bytes) = false := by simp only [State.held, hidle]; rfl
  have hpick : s.pickReady s.port.inbox = some (.submit bytes, []) := by
    rw [hinbox]; exact pickReady_cons hfree
  have hr := emitReady_of_idle hidle
  rw [step_of_take (choose_of_pick hpick hr), fetched_of_not_ready hr]
  rfl

/-- Settles O19: the first step takes the submission; from there `run_segmentLoop` emits the
packets, or, for the empty input, there is nothing more to do. -/
theorem segmentMachineAgrees : Obligations.SegmentMachineAgrees := by
  unfold Obligations.SegmentMachineAgrees
  intro s bytes h hidle hinbox hfits
  have hstep := step_of_submit hidle hinbox
  by_cases hne : bytes = []
  · subst hne
    have hstep := hstep.trans (segSubmit_empty (s := s.setPort _) hidle)
    exact ⟨rfl, _, run_succ_of_step hstep 0, rfl, hidle, rfl, rfl, rfl, rfl, rfl⟩
  · have hstep := hstep.trans (segSubmit_legal (s := s.setPort _) hidle hne hfits)
    have hinv := step_keeps_inv h hstep
    rw [segment_of_ne_nil hne]
    intro hroom
    rw [Nat.add_comm 1, run_succ_of_step hstep]
    obtain ⟨t, ht, hseg⟩ :=
      run_segmentLoop (strip bytes).length hinv rfl rfl (Nat.zero_add _).ge hroom
    exact ⟨t, ht, hseg.txq_eq, hseg.idle, hseg.result_ok, hseg.group_eq, hseg.dec_eq,
      hseg.params_eq, by rw [hseg.port_eq]; rfl, by rw [hseg.port_eq]; rfl⟩

end Sys2Proof.Machine
end

section
/-! PROOFS. The loop of `decode(packets)` (R113) against the registers of DEC: one packet of the
call is one turn of the loop, so the accepted status sequences are those of the table of R111. -/

namespace Sys2Proof.Machine

/-! ### One packet of a call, one turn of the loop -/

/-- What `decode` would return for a call in the state `d` that still gets the packets `ps`: the
error the call has failed with, or what the loop gives from the registers on. -/
def DecState.callResult (d : DecState) (ps : List Packet) : Except ErrKind (List Byte × List Nat) :=
  match d.err with
  | some e => .error e
  | none => decodeLoop d.acc d.bounds d.inrun ps

/-- A failed call returns its error whatever comes. -/
theorem callResult_of_failed {d : DecState} {e : ErrKind} (h : d.err = some e) (ps : List Packet) :
    d.callResult ps = .error e := by
  simp only [DecState.callResult, h]

/-- A call without an error goes on with the loop. -/
theorem callResult_of_good {d : DecState} (h : d.err = none) (ps : List Packet) :
    d.callResult ps = decodeLoop d.acc d.bounds d.inrun ps := by
  simp only [DecState.callResult, h]

/-- The loop turns on a packet that passes the two tests as the table of R111 says. -/
theorem decodeLoop_cons_passes {p : Packet} (hmt : (unpack p.word0).mt = Config.mtSysEx7)
    (hc : ¬ 6 < (unpack p.word0).count.toNat) {d : DecState} (h : d.err = none) (ps : List Packet) :
    decodeLoop d.acc d.bounds d.inrun (p :: ps)
      = (d.ranPacket (unpack p.word0).status
          (payloadOf p (unpack p.word0).count.toNat)).callResult ps := by
  simp only [decodeLoop, hmt, ne_eq, not_true_eq_false, if_false, gt_iff_lt, hc, DecState.ranPacket,
    runNext]
  generalize (unpack p.word0).status.toNat = status
  cases hr : d.inrun <;> match status with
  | 0 => simp [DecState.callResult, h]
  | 1 => simp [DecState.callResult, h]
  | 2 => simp [DecState.callResult, h]
  | 3 => simp [DecState.callResult, h]
  | n + 4 => simp [DecState.callResult]

/-- A packet taken by a call without an error is a turn of the loop: the two make the same tests in
the same order. -/
theorem callResult_tookPacket {d : DecState} (h : d.err = none) (p : Packet) (ps : List Packet) :
    (d.tookPacket p).callResult ps = d.callResult (p :: ps) := by
  rw [callResult_of_good h]
  unfold DecState.tookPacket
  split_ifs with hmt hc
  · simp only [decodeLoop, if_pos hmt, callResult_of_failed (DecState.raise_err d _)]
  · simp only [decodeLoop, if_neg hmt, gt_iff_lt, if_pos hc,
      callResult_of_failed (DecState.raise_err d _)]
  · exact (decodeLoop_cons_passes (not_not.mp hmt) hc h ps).symm

/-! ### The grammar of a call -/

/-- The statuses `l` complete the run that is open, if one is, and then are those of whole runs
(R111). -/
def CompletesRuns (inrun : Bool) (l : List Nat) : Prop :=
  ∃ (conts : Nat) (runs : List RunShape),
    l = (if inrun then List.replicate conts 2 ++ [3] else [])
      ++ (runs.map RunShape.statuses).flatten

/-- No packets complete the runs of a call exactly where none is open. -/
theorem completesRuns_nil (inrun : Bool) : CompletesRuns inrun [] ↔ inrun = false := by
  constructor
  · rintro ⟨conts, runs, h⟩
    cases inrun <;> simp_all
  · rintro rfl
    exact ⟨0, [], rfl⟩

/-- The table of R111 written out as its four rows. -/
theorem runNext_eq_some_iff (inrun : Bool) (status : Nibble) (next : Bool × Bool) :
    runNext inrun status = some next
      ↔ (inrun = false ∧ status.toNat = 0 ∧ next = (false, true))
        ∨ (inrun = false ∧ status.toNat = 1 ∧ next = (true, false))
        ∨ (inrun = true ∧ status.toNat = 2 ∧ next = (true, false))
        ∨ (inrun = true ∧ status.toNat = 3 ∧ next = (false, true)) := by
  obtain ⟨b, c⟩ := next
  revert inrun status b c
  decide

/-- The first status of a sequence that completes the runs is one the table of R111 admits, and the
rest completes them from the state it leaves. -/
theorem completesRuns_cons (inrun : Bool) (status : Nibble) (l : List Nat) :
    CompletesRuns inrun (status.toNat :: l)
      ↔ ∃ next, runNext inrun status = some next ∧ CompletesRuns next.1 l := by
  simp only [runNext_eq_some_iff]
  constructor
  · rintro ⟨conts, runs, h⟩
    cases inrun with
    | false =>
      match runs with
      | [] => cases h
      | .single :: runs =>
        obtain ⟨hstatus, rfl⟩ := List.cons.inj h
        exact ⟨_, .inl ⟨rfl, hstatus, rfl⟩, 0, runs, rfl⟩
      | .multi n :: runs =>
        obtain ⟨hstatus, rfl⟩ := List.cons.inj h
        exact ⟨_, .inr (.inl ⟨rfl, hstatus, rfl⟩), n, runs, rfl⟩
    | true =>
      match conts with
      | 0 =>
        obtain ⟨hstatus, rfl⟩ := List.cons.inj h
        exact ⟨_, .inr (.inr (.inr ⟨rfl, hstatus, rfl⟩)), 0, runs, rfl⟩
      | n + 1 =>
        obtain ⟨hstatus, rfl⟩ := List.cons.inj h
        exact ⟨_, .inr (.inr (.inl ⟨rfl, hstatus, rfl⟩)), n, runs, rfl⟩
  · rintro ⟨next, hrow, conts, runs, rfl⟩
    rcases hrow with ⟨rfl, hs, rfl⟩ | ⟨rfl, hs, rfl⟩ | ⟨rfl, hs, rfl⟩ | ⟨rfl, hs, rfl⟩ <;> rw [hs]
    · exact ⟨0, .single :: runs, rfl⟩
    · exact ⟨0, .multi conts :: runs, rfl⟩
    · exact ⟨conts + 1, runs, rfl⟩
    · exact ⟨0, runs, rfl⟩

/-- A call is decoded exactly where it has not failed and its packets complete the runs. -/
theorem callResult_ok_iff {packets : List Packet} (hpass : ∀ p ∈ packets, passesTests p = true)
    (d : DecState) :
    (∃ result, d.callResult packets = .ok result)
      ↔ d.err = none ∧ CompletesRuns d.inrun (packets.map packetStatus) := by
  induction packets generalizing d with
  | nil =>
    rw [List.map_nil, completesRuns_nil]
    cases he : d.err <;> cases hr : d.inrun <;> simp [DecState.callResult, he, decodeLoop, hr]
  | cons p ps ih =>
    obtain ⟨hp, hps⟩ := List.forall_mem_cons.mp hpass
    cases he : d.err with
    | some e => simp [callResult_of_failed he]
    | none =>
      rw [← callResult_tookPacket he, ih hps, tookPacket_of_passesTests hp, List.map_cons,
        packetStatus, completesRuns_cons, DecState.ranPacket]
      cases runNext d.inrun (unpack p.word0).status <;> simp [he]

/-- Settles O37: `callResult_ok_iff` for a fresh call, in which no run is open. -/
theorem acceptedStatusSequences : Obligations.AcceptedStatusSequences := by
  unfold Obligations.AcceptedStatusSequences
  intro packets hpass
  refine (callResult_ok_iff hpass DecState.fresh).trans ⟨?_, ?_⟩
  · rintro ⟨-, conts, runs, h⟩
    exact ⟨runs, h⟩
  · rintro ⟨runs, h⟩
    exact ⟨rfl, 0, runs, h⟩

end Sys2Proof.Machine
end

section
/-! PROOFS. A call of the machine against `decode` (R113): every command of the call reaches the
block, however SEG's own steps fall between them, and each packet is one turn of the loop. -/

namespace Sys2Proof.Machine

/-! ### A command reaches the block -/

/-- From `s`, whose inbox begins with the command `c`, `m` emits of SEG go by, and then the command
is taken, from the state `f`. -/
structure Delivered (s : State) (c : HostCmd) (rest : List HostCmd) (m : Nat) (f : State) :
    Prop where
  /-- The run goes on with what the command leaves. -/
  run_next : ∀ (t : State) (k : Nat), f.command c = .next t →
    Sys2Proof.core.run (k + (m + 1)) s = Sys2Proof.core.run k t
  /-- The command leaves a state that meets the invariant. -/
  inv_next : ∀ t, f.command c = .next t → t.Inv
  /-- The command is out of the inbox. -/
  inbox_eq : f.port.inbox = rest
  /-- Nothing was returned to the host meanwhile. -/
  replies_eq : f.port.replies = s.port.replies
  /-- DEC is left alone. -/
  dec_eq : f.dec = s.dec
  /-- So are the parameters. -/
  params_eq : f.params = s.params
  /-- A SEG that is not ready takes no step. -/
  at_once : s.emitReady = false → m = 0 ∧ f.seg = s.seg

/-- A chosen command is delivered at once. -/
theorem delivered_of_choose {s : State} {c : HostCmd} {rest : List HostCmd} (h : s.Inv)
    (hc : s.choose = .take c rest) : Delivered s c rest 0 (s.fetched rest) where
  run_next _ k ht := run_succ_of_step ((step_of_take hc).trans ht) k
  inv_next _ ht := step_keeps_inv h ((step_of_take hc).trans ht)
  inbox_eq := rfl
  replies_eq := s.fetched_replies rest
  dec_eq := s.fetched_dec rest
  params_eq := s.fetched_params rest
  at_once _ := ⟨rfl, s.fetched_seg rest⟩

/-- The invariant says nothing of the host's side. -/
theorem inv_spendTurn {s : State} (h : s.Inv) : s.spendTurn.Inv where
  params := by rw [s.spendTurn_params]; exact h.params
  seg := by rw [s.spendTurn_seg, s.spendTurn_params]; exact h.seg
  dec := by rw [s.spendTurn_dec, s.spendTurn_params]; exact h.dec

/-- A command that is never held is delivered, whatever the schedule: SEG can go first only while
bytes of its message are left, and each emit packs some (induction on `SEG.LEN - SEG.POS`). -/
theorem delivered_of_free {c : HostCmd} (hfree : ∀ t : State, t.held c = false) {s : State}
    (h : s.Inv) {rest : List HostCmd} (hinbox : s.port.inbox = c :: rest) :
    ∃ m f, Delivered s c rest m f := by
  induction hn : s.seg.remaining using Nat.strong_induction_on generalizing s with
  | _ n ih =>
    have hpick : s.pickReady s.port.inbox = some (c, rest) := by
      rw [hinbox]; exact pickReady_cons (hfree s)
    cases hturn : s.emitReady && s.port.segTurn with
    | false => exact ⟨0, _, delivered_of_choose h (by simp only [State.choose, hpick, hturn]; rfl)⟩
    | true =>
      have hready := (Bool.and_eq_true_iff.mp hturn).1
      have hrun : s.spendTurn.seg.mode = .run := by
        rw [s.spendTurn_seg]; exact ((emitReady_iff s).mp hready).1
      obtain ⟨u, hu, hprog⟩ := segEmit_progress (inv_spendTurn h) hrun
      have hstep : step s = .next u :=
        (step_of_emit (by simp only [State.choose, hpick, hturn, if_true])).trans hu
      have hless : u.seg.remaining < n := by
        have hpos := hprog.pos_lt
        have hle := hprog.pos_le
        have hlen := hprog.len_eq
        rw [s.spendTurn_seg] at hpos hlen
        simp only [SegState.remaining] at hn ⊢
        omega
      obtain ⟨m, f, hf⟩ := ih _ hless (step_keeps_inv h hstep)
        (by rw [hprog.port_eq, s.spendTurn_inbox]; exact hinbox) rfl
      refine ⟨m + 1, f, fun t k ht => ?_, hf.inv_next, hf.inbox_eq, ?_, ?_, ?_, fun hr => ?_⟩
      · exact (run_succ_of_step hstep (k + (m + 1))).trans (hf.run_next t k ht)
      · rw [hf.replies_eq, hprog.port_eq, s.spendTurn_replies]
      · rw [hf.dec_eq, hprog.dec_eq, s.spendTurn_dec]
      · rw [hf.params_eq, hprog.params_eq, s.spendTurn_params]
      · cases hready.symm.trans hr

/-! ### A call of the machine -/

/-- A packet of an open call with room is a turn of `decode`'s loop. -/
theorem exec_decode_callResult {s : State} (hm : s.dec.mode = .opened)
    (hroom : Params.reached s.params.maxPkts s.dec.npkt = false) (p : Packet) :
    ∃ e, exec (decode p) s = .next (s.setDec e) ∧ e.mode = .opened ∧ e.npkt = s.dec.npkt + 1
      ∧ ∀ ps, e.callResult ps = s.dec.callResult (p :: ps) := by
  cases he : s.dec.err with
  | some err =>
    refine ⟨_, exec_of_failed hm hroom (by simp [he]) (decode p), hm, rfl, fun ps => ?_⟩
    rw [callResult_of_failed he, callResult_of_failed (d := s.dec.counted) he]
  | none =>
    have hexec := exec_decode_of_examines ⟨hm, hroom, he⟩ p
    obtain ⟨-, -, -, hmode, -, hnpkt, -⟩ := packetFrame _ s _ hexec
    exact ⟨_, hexec, hmode.trans hm, hnpkt,
      callResult_tookPacket (d := s.dec.counted.recorded _) he p⟩

/-- `DEC.END` returns what `decode` returns for no more packets (R112, R113). -/
theorem outcome_closed (d : DecState) : d.closed.outcome = callReply (d.callResult []) := by
  cases he : d.err with
  | some e =>
    rw [callResult_of_failed he, closed_of_failed he, outcome_of_failed (d := d.ended) he]; rfl
  | none =>
    cases hr : d.inrun with
    | false =>
      rw [callResult_of_good he, hr, closed_of_no_run hr, outcome_of_good (d := d.ended) he]; rfl
    | true =>
      rw [callResult_of_good he, hr, closed_of_open_run he hr,
        outcome_of_failed (d := (d.raise _).ended) rfl]; rfl

/-- The end of a call sets `DEC.DONE` and keeps `DEC.NPKT` (R112). -/
theorem closed_done_npkt (d : DecState) : d.closed.done = true ∧ d.closed.npkt = d.npkt := by
  unfold DecState.closed
  split <;> exact ⟨rfl, rfl⟩

/-- From `s` a run of `n` steps ends a call with the reply `r` after `npkt` packets, in `t`; with
SEG not ready it takes one step for each of the `k` commands. -/
structure CallRun (s : State) (r : Reply) (npkt k n : Nat) (t : State) : Prop where
  /-- The run. -/
  run_eq : Sys2Proof.core.run n s = .next t
  /-- The host gets the one reply. -/
  replies_eq : t.port.replies = s.port.replies ++ [r]
  /-- The call is over. -/
  mode_eq : t.dec.mode = .idle
  /-- Its result stands. -/
  done_eq : t.dec.done = true
  /-- The packets were counted. -/
  npkt_eq : t.dec.npkt = npkt
  /-- The commands are used up. -/
  inbox_eq : t.port.inbox = []
  /-- The parameters are left alone. -/
  params_eq : t.params = s.params
  /-- A SEG that is not ready takes no step. -/
  at_once : s.emitReady = false → n = k ∧ t.seg = s.seg

/-- Whether SEG is ready depends on SEG and the parameters (R87). -/
theorem emitReady_congr {s t : State} (hseg : t.seg = s.seg) (hparams : t.params = s.params) :
    t.emitReady = s.emitReady := by
  simp only [State.emitReady, hseg, hparams]

/-- A delivered command that writes DEC only is the first command of a call run. -/
theorem CallRun.of_delivered {s f : State} {c : HostCmd} {rest : List HostCmd} {m : Nat}
    (hf : Delivered s c rest m f) {e : DecState} (hc : f.command c = .next (f.setDec e)) {r : Reply}
    {npkt k n : Nat} {t : State} (hrun : CallRun (f.setDec e) r npkt k n t) :
    CallRun s r npkt (k + 1) (n + (m + 1)) t where
  run_eq := (hf.run_next _ n hc).trans hrun.run_eq
  replies_eq := by rw [hrun.replies_eq, State.setDec_port, hf.replies_eq]
  mode_eq := hrun.mode_eq
  done_eq := hrun.done_eq
  npkt_eq := hrun.npkt_eq
  inbox_eq := hrun.inbox_eq
  params_eq := hrun.params_eq.trans hf.params_eq
  at_once hr := by
    obtain ⟨rfl, hseg⟩ := hf.at_once hr
    obtain ⟨rfl, ht⟩ := hrun.at_once ((emitReady_congr hseg hf.params_eq).trans hr)
    exact ⟨rfl, ht.trans hseg⟩

/-- The packets and the end of an open call, by induction on the packets. -/
theorem callRun_of_opened (packets : List Packet) {s : State} (h : s.Inv)
    (hm : s.dec.mode = .opened)
    (hfits : Params.within s.params.maxPkts (s.dec.npkt + packets.length) = true)
    (hinbox : s.port.inbox = packets.map HostCmd.decPkt ++ [.decEnd]) :
    ∃ n t, CallRun s (callReply (s.dec.callResult packets)) (s.dec.npkt + packets.length)
      (packets.length + 1) n t := by
  induction packets generalizing s with
  | nil =>
    obtain ⟨m, f, hf⟩ := delivered_of_free (fun _ => rfl) h hinbox
    have hdec := hf.dec_eq
    have hend : f.command .decEnd = _ := decEnd_of_opened (hdec ▸ hm)
    obtain ⟨hdone, hnpkt⟩ := closed_done_npkt f.dec
    refine ⟨0 + (m + 1), _, (hf.run_next _ 0 hend).trans rfl, ?_, closed_mode f.dec, hdone, ?_,
      hf.inbox_eq, hf.params_eq, fun hr => ?_⟩
    · rw [State.answer_replies, State.setDec_port, hf.replies_eq, outcome_closed, hdec]
    · rw [← hdec]; exact hnpkt
    · obtain ⟨rfl, hseg⟩ := hf.at_once hr
      exact ⟨rfl, hseg⟩
  | cons p ps ih =>
    obtain ⟨m, f, hf⟩ := delivered_of_free (fun _ => rfl) h hinbox
    have hdec := hf.dec_eq
    have hroom : Params.reached f.params.maxPkts f.dec.npkt = false := by
      rw [hf.params_eq, hdec]
      exact not_reached_of_within (Nat.lt_add_of_pos_right (Nat.succ_pos _)) hfits
    obtain ⟨e, hexec, hopen, hnpkt, hresult⟩ := exec_decode_callResult (hdec ▸ hm) hroom p
    have hcount : e.npkt + ps.length = s.dec.npkt + (p :: ps).length := by
      rw [hnpkt, hdec, List.length_cons]; omega
    obtain ⟨n, t, hrun⟩ := ih (s := f.setDec e) (hf.inv_next _ hexec) hopen
      (by rw [State.setDec_params, State.setDec_dec, hf.params_eq, hcount]; exact hfits) hf.inbox_eq
    rw [State.setDec_dec, hcount, hresult, hdec] at hrun
    exact ⟨_, t, hrun.of_delivered hf hexec⟩

/-- Settles O35: `DEC.BEGIN` is delivered and opens a fresh call, in which `callRun_of_opened` takes
the packets and `DEC.END`; `decode` is the result of a fresh call. -/
theorem callAgreesWithDecode : Obligations.CallAgreesWithDecode := by
  unfold Obligations.CallAgreesWithDecode
  intro s packets h hidle hfits hinbox
  obtain ⟨m, f, hf⟩ := delivered_of_free (fun _ => rfl) h hinbox
  have hbegin : f.command .decBegin = _ := decBegin_of_idle (hf.dec_eq ▸ hidle)
  have hnone : DecState.fresh.npkt + packets.length = packets.length := Nat.zero_add _
  obtain ⟨n, t, hrun⟩ := callRun_of_opened packets (s := f.setDec DecState.fresh)
    (hf.inv_next _ hbegin) rfl
    (by rw [State.setDec_dec, hnone, State.setDec_params, hf.params_eq]; exact hfits) hf.inbox_eq
  rw [State.setDec_dec, hnone] at hrun
  have hall := hrun.of_delivered hf hbegin
  exact ⟨_, t, hall.run_eq, hall.replies_eq, hall.mode_eq, hall.done_eq, hall.npkt_eq,
    hall.inbox_eq, hall.params_eq, hall.at_once⟩

end Sys2Proof.Machine
end

section
/-! PROOFS. The copies of the block: a step of one is that copy's own (R139), and keeps the copies a
legal choice of the parameters (R6). -/

namespace Sys2Proof.Machine

/-- Settles O56: a step of a copy that exists puts that copy's next state in its place. -/
theorem copiesIndependent : Obligations.CopiesIndependent := by
  unfold Obligations.CopiesIndependent
  intro cs ds k s hk h
  rcases stepAt_next h with ⟨hnone, -⟩ | ⟨s', t, hk', ht, rfl⟩
  · cases hk.symm.trans hnone
  · cases hk.symm.trans hk'
    obtain ⟨hlt, -⟩ := List.getElem?_eq_some_iff.mp hk
    exact ⟨List.length_set, ⟨t, ht, List.getElem?_set_self hlt⟩,
      fun j hj => List.getElem?_set_ne hj.symm⟩

/-- The copies are a legal choice where there is one at least and each has legal parameters. -/
theorem copies_legal_iff (cs : Copies) :
    cs.legal = true ↔ 1 ≤ cs.length ∧ ∀ s ∈ cs, s.params.legal = true := by
  simp [Copies.legal, nInstLegal]

/-- Settles O58: the reset parameters are legal, and no step writes those of its copy. -/
theorem copiesStayLegal : Obligations.CopiesStayLegal := by
  unfold Obligations.CopiesStayLegal
  refine ⟨fun n => ?reset, fun cs ds k hlegal h => ?step⟩
  case reset =>
    have hlen : (Copies.reset n).length = n := List.length_replicate
    have heach : ∀ s ∈ Copies.reset n, s = State.reset := fun s hs => List.eq_of_mem_replicate hs
    refine ⟨hlen, heach, ?_⟩
    rw [copies_legal_iff, hlen]
    exact and_iff_left fun s hs => by rw [heach s hs]; rfl
  case step =>
    rcases stepAt_next h with ⟨-, rfl⟩ | ⟨s, t, hk, ht, rfl⟩
    · exact ⟨hlegal, rfl⟩
    · rw [copies_legal_iff] at hlegal ⊢
      obtain ⟨hone, hall⟩ := hlegal
      refine ⟨⟨by rwa [List.length_set], fun u hu => ?_⟩, List.length_set⟩
      rcases List.mem_or_eq_of_mem_set hu with hold | rfl
      · exact hall u hold
      · rw [step_params ht]; exact hall s (List.mem_of_getElem? hk)

end Sys2Proof.Machine
end
